-- ==== Sys2Proof/Word.lean ====
section
/-! DEFINITION. The word types of base64_codec (00_scope.md R9): bytes, command and response words, alphabet indices. -/

namespace Sys2Proof

/-- A byte or a character code: `BYTE_W` = `SYM_W` = 8 bits (R9). -/
abbrev Byte := BitVec 8

/-- A command word or a response data word: `CMD_W` = `RSP_DATA_W` = 32 bits (R9). -/
abbrev Word := BitVec 32

/-- An alphabet index: `INDEX_W` = 6 bits (R9). -/
abbrev Index := BitVec 6

end Sys2Proof
end

