-- ==== Sys2Proof/Syntax.lean ====
section
/-! DEFINITION. The instructions: one constructor for each row of spec/opcode_table.json (30_encoding.md R65). -/

namespace Sys2Proof

/-- A legal command with its operand fields (R62, R64). Every field has its own width, so every term is a
legal command. The ignored bits and lanes of R63 are no fields: the decoder drops them. -/
inductive Instr where
  /-- ENC.1: encode a final group of one byte (40_encoder.md R87). -/
  | enc1 (b0 : Byte)
  /-- ENC.2: encode a final group of two bytes (R86). -/
  | enc2 (b0 b1 : Byte)
  /-- ENC.3: encode a full group of three bytes (R85). -/
  | enc3 (b0 b1 b2 : Byte)
  /-- DINIT: start a decode transaction (41_decoder.md R101). -/
  | dinit
  /-- DSYM: present one symbol to the decoder (R102). -/
  | dsym (sym : Byte)
  /-- DEND: end a decode transaction (R108). -/
  | dend
  /-- STAT: read the decoder status (R109). -/
  | stat
  /-- ALPH: read the alphabet ROM (40_encoder.md R89). -/
  | alph (idx : Index)
  /-- RLUT: read the reverse-lookup ROM (41_decoder.md R110). -/
  | rlut (sym : Byte)
  deriving DecidableEq, Repr

end Sys2Proof
end

