-- ==== Sys2Proof/Decode.lean ====
section
/-! DEFINITION. Decoding and encoding of the 32-bit command word (30_encoding.md R61 to R66, R69). -/

namespace Sys2Proof

/-- Why a word is no command (R66). -/
inductive DecodeReject where
  /-- `OP` is 0x0 or 0x8..0xF. -/
  | illegalOpcode (op : BitVec 4)
  /-- `OP` is 0x1 and `N` is 0b00: an empty group (40_encoder.md R88). -/
  | emptyGroup
  deriving DecidableEq, Repr

/-- `OP = CMD[31:28]` (R61). -/
def opField (w : Word) : BitVec 4 := w.extractLsb' 28 4

/-- `N = CMD[25:24]` (R62, format E). -/
def nField (w : Word) : BitVec 2 := w.extractLsb' 24 2

/-- `B0 = CMD[23:16]` (R62, format E). -/
def b0Field (w : Word) : Byte := w.extractLsb' 16 8

/-- `B1 = CMD[15:8]` (R62, format E). -/
def b1Field (w : Word) : Byte := w.extractLsb' 8 8

/-- `B2 = CMD[7:0]` (R62, format E). -/
def b2Field (w : Word) : Byte := w.extractLsb' 0 8

/-- `SYM = CMD[7:0]` (R62, format S). -/
def symField (w : Word) : Byte := w.extractLsb' 0 8

/-- `IDX = CMD[5:0]` (R62, format I). -/
def idxField (w : Word) : Index := w.extractLsb' 0 6

/-- The format E commands: `N` selects ENC.1, ENC.2 or ENC.3 (R61, R65). -/
def decodeGroup (w : Word) : Except DecodeReject Instr :=
  if nField w = 0b01#2 then .ok (.enc1 (b0Field w))
  else if nField w = 0b10#2 then .ok (.enc2 (b0Field w) (b1Field w))
  else if nField w = 0b11#2 then .ok (.enc3 (b0Field w) (b1Field w) (b2Field w))
  else .error .emptyGroup

/-- The opcode map of R65: total on every 32-bit word (R66). -/
def decode (w : Word) : Except DecodeReject Instr :=
  if opField w = 0x1#4 then decodeGroup w
  else if opField w = 0x2#4 then .ok .dinit
  else if opField w = 0x3#4 then .ok (.dsym (symField w))
  else if opField w = 0x4#4 then .ok .dend
  else if opField w = 0x5#4 then .ok .stat
  else if opField w = 0x6#4 then .ok (.alph (idxField w))
  else if opField w = 0x7#4 then .ok (.rlut (symField w))
  else .error (.illegalOpcode (opField w))

/-- The assembler's word of a command: 0 in every ignored bit and lane (R69). -/
def encode : Instr → Word
  | .enc1 b0 => 0x11000000#32 ||| b0.setWidth 32 <<< 16
  | .enc2 b0 b1 => 0x12000000#32 ||| b0.setWidth 32 <<< 16 ||| b1.setWidth 32 <<< 8
  | .enc3 b0 b1 b2 => 0x13000000#32 ||| b0.setWidth 32 <<< 16 ||| b1.setWidth 32 <<< 8 ||| b2.setWidth 32
  | .dinit => 0x20000000#32
  | .dsym sym => 0x30000000#32 ||| sym.setWidth 32
  | .dend => 0x40000000#32
  | .stat => 0x50000000#32
  | .alph idx => 0x60000000#32 ||| idx.setWidth 32
  | .rlut sym => 0x70000000#32 ||| sym.setWidth 32

/-- The `match` column of R65. -/
def matchWord : Instr → Word
  | .enc1 _ => 0x11000000#32
  | .enc2 _ _ => 0x12000000#32
  | .enc3 _ _ _ => 0x13000000#32
  | .dinit => 0x20000000#32
  | .dsym _ => 0x30000000#32
  | .dend => 0x40000000#32
  | .stat => 0x50000000#32
  | .alph _ => 0x60000000#32
  | .rlut _ => 0x70000000#32

/-- The `mask` column of R65. -/
def maskWord : Instr → Word
  | .enc1 _ => 0xF3000000#32
  | .enc2 _ _ => 0xF3000000#32
  | .enc3 _ _ _ => 0xF3000000#32
  | .dinit => 0xF0000000#32
  | .dsym _ => 0xF0000000#32
  | .dend => 0xF0000000#32
  | .stat => 0xF0000000#32
  | .alph _ => 0xF0000000#32
  | .rlut _ => 0xF0000000#32

/-- The bits of the word that the command reads: its mask and its operand fields. Every other bit is ignored
(R62, R63). -/
def readMask : Instr → Word
  | .enc1 _ => 0xF3FF0000#32
  | .enc2 _ _ => 0xF3FFFF00#32
  | .enc3 _ _ _ => 0xF3FFFFFF#32
  | .dinit => 0xF0000000#32
  | .dsym _ => 0xF00000FF#32
  | .dend => 0xF0000000#32
  | .stat => 0xF0000000#32
  | .alph _ => 0xF000003F#32
  | .rlut _ => 0xF00000FF#32

/-- The word of an instruction given by its bits, numbered as spec/opcode_table.json numbers them: the block takes
a command as one whole 32-bit word (R61, 20_memory.md R47). Bits at or above `nbits` are 0. -/
def tableWord (nbits w : Nat) : Word := BitVec.ofNat 32 (w % 2 ^ nbits)

/-- The instruction the decoder reads from an instruction whose bits are `w`; none where it rejects them. -/
def decodeTableWord (nbits w : Nat) : Option Instr := (decode (tableWord nbits w)).toOption

end Sys2Proof
end

