-- ==== Sys2Proof/Machine/Roms.lean ====
section
/-! DEFINITION. The two read-only tables: the alphabet ROM (10_state.md R22, R23) and the reverse-lookup ROM (R24). -/

namespace Sys2Proof.Machine

/-- The padding symbol `'='` (R23). -/
def pad : Byte := 0x3D#8

/-- `A..Z`, indices 0..25 (R22). -/
def alphabetUpper : List Byte :=
  [0x41#8, 0x42#8, 0x43#8, 0x44#8, 0x45#8, 0x46#8, 0x47#8, 0x48#8, 0x49#8, 0x4A#8, 0x4B#8, 0x4C#8, 0x4D#8,
   0x4E#8, 0x4F#8, 0x50#8, 0x51#8, 0x52#8, 0x53#8, 0x54#8, 0x55#8, 0x56#8, 0x57#8, 0x58#8, 0x59#8, 0x5A#8]

/-- `a..z`, indices 26..51 (R22). -/
def alphabetLower : List Byte :=
  [0x61#8, 0x62#8, 0x63#8, 0x64#8, 0x65#8, 0x66#8, 0x67#8, 0x68#8, 0x69#8, 0x6A#8, 0x6B#8, 0x6C#8, 0x6D#8,
   0x6E#8, 0x6F#8, 0x70#8, 0x71#8, 0x72#8, 0x73#8, 0x74#8, 0x75#8, 0x76#8, 0x77#8, 0x78#8, 0x79#8, 0x7A#8]

/-- `0..9`, indices 52..61, then `+` and `/` (R22). -/
def alphabetDigits : List Byte :=
  [0x30#8, 0x31#8, 0x32#8, 0x33#8, 0x34#8, 0x35#8, 0x36#8, 0x37#8, 0x38#8, 0x39#8, 0x2B#8, 0x2F#8]

/-- The 64 entries of `ALPHABET` in index order (R22). -/
def alphabetTable : List Byte := alphabetUpper ++ alphabetLower ++ alphabetDigits

/-- `ALPHABET[i]`. The table has an entry at every 6-bit index (20_memory.md R41), so the default is never read. -/
def alphabet (i : Index) : Byte := alphabetTable.getD i.toNat 0#8

/-- An entry of `REV`: the triple (P, V, IDX) (R24). -/
structure RevEntry where
  pad : Bool
  valid : Bool
  idx : Index
  deriving DecidableEq, Repr

/-- The entry of an alphabet symbol (R24). -/
def revSymbol (n : Nat) : RevEntry := ⟨false, true, BitVec.ofNat 6 n⟩

/-- `REV[c]`, by code range (R24). -/
def rev (c : Byte) : RevEntry :=
  if 0x41 ≤ c.toNat ∧ c.toNat ≤ 0x5A then revSymbol (c.toNat - 0x41)
  else if 0x61 ≤ c.toNat ∧ c.toNat ≤ 0x7A then revSymbol (c.toNat - 0x61 + 26)
  else if 0x30 ≤ c.toNat ∧ c.toNat ≤ 0x39 then revSymbol (c.toNat - 0x30 + 52)
  else if c = 0x2B#8 then revSymbol 62
  else if c = 0x2F#8 then revSymbol 63
  else if c = 0x3D#8 then ⟨true, false, 0#6⟩
  else ⟨false, false, 0#6⟩

end Sys2Proof.Machine
end

