-- ==== Sys2Proof/Machine/State.lean ====
section
/-! DEFINITION. The state of base64_codec (10_state.md R21 to R33), what the host does to it (42_host_transactions.md
R141), its responses (30_encoding.md R67), and why a step can stop. -/

namespace Sys2Proof.Machine

/-- The response codes of R67. The reserved code 0b11 is never produced, so it has no constructor. -/
inductive RspCode where
  /-- 0b00: the command completed. -/
  | ok
  /-- 0b01: the decode transaction in progress has failed (60_exceptions.md R151). -/
  | invalidCharacter
  /-- 0b10: the word was illegal (R152). -/
  | illegalCommand
  deriving DecidableEq, Repr

/-- One response: the code and the data word (R67). -/
structure Response where
  code : RspCode
  data : Word
  deriving DecidableEq, Repr

/-- What the host does next (R141). Every event is one step of the model. -/
inductive HostEvent where
  /-- Issue a command word and take its response: one atomic step (00_scope.md R8). -/
  | command (w : Word)
  /-- Issue a command word and hold its response off: `rsp_ready` stays 0 (70_reset_and_hazards.md R172, R179). -/
  | offer (w : Word)
  /-- Raise `rsp_ready` for one edge: take the response that is waiting, if one is (R172). -/
  | accept
  /-- Assert `rst` for at least one rising edge of `clk`, then release it (R171, R175). -/
  | reset
  /-- Remove power and apply it again (60_exceptions.md R163). -/
  | powerCycle
  deriving DecidableEq, Repr

/-- The state. The five decoder registers and `RST_DONE` are the architectural state of R21, beside the two ROMs,
which are constants (Machine/Roms.lean). -/
structure State where
  /-- `ACC`, the bit accumulator (R26). -/
  acc : BitVec 12
  /-- `CNT`, the number of buffered bits (R26). -/
  cnt : BitVec 4
  /-- `ERR`, the sticky error flag (R26). -/
  err : Bool
  /-- `PADC`, padding symbols seen since the last clear, saturating at 3 (R26). -/
  padc : BitVec 2
  /-- `IPAD`, an alphabet symbol arrived after a padding symbol (R26). -/
  ipad : Bool
  /-- `RST_DONE`, model state that no command reads out (R32). -/
  rstDone : Bool
  /-- The command in flight, whose response the host has not taken (R172); it has had no effect yet (R32). -/
  inFlight : Option Word
  /-- The model's own: what the host does next, in order. Log entry 1. -/
  script : List HostEvent
  /-- The model's own: every response the host has taken, oldest first. Log entry 2. -/
  responses : List Response
  /-- The model's own: picks the free register values of the next loss of power. Log entry 8. -/
  freeCount : Nat
  deriving DecidableEq, Repr

/-- The machine right after reset, with nothing for it to do (R33). -/
def State.reset : State where
  acc := 0x000#12
  cnt := 0#4
  err := false
  padc := 0#2
  ipad := false
  rstDone := true
  inFlight := none
  script := []
  responses := []
  freeCount := 0

/-- Faults: none. The block has no trap and no exception other than its response codes (60_exceptions.md R153, R155),
so no step ends in a fault. -/
inductive Fault where
  deriving DecidableEq, Repr

/-- Why a step has no meaning. -/
inductive Refusal where
  /-- Raised by `exec`'s arm for an instruction that has no meaning yet; no arm raises it now. Safe. -/
  | notModelled (mnemonic : String)
  /-- Raised by every command, legal or illegal, issued before the first reset: "A model gives a command issued in
  this state no meaning: the step is refused" (70_reset_and_hazards.md R174). Safe. -/
  | beforeReset
  /-- Raised by DSYM with an alphabet symbol in a state that violates `INV`: "A state that violates `INV` is
  unreachable, and this spec gives it no meaning" (10_state.md R28). Safe. Log entry 9. -/
  | outsideInv
  deriving DecidableEq, Repr

/-- What a step answers. -/
abbrev Result := Host.Outcome State Fault Refusal

end Sys2Proof.Machine
end

