-- ==== Sys2Proof/Machine/Operands.lean ====
section
/-! DEFINITION. The data paths: the encoder's index extraction, lookup and padding formatter (40_encoder.md R81 to R84),
the decoder's shift-in and overflow-to-byte (41_decoder.md R106), and the layouts of the data words (30_encoding.md R68). -/

namespace Sys2Proof.Machine

/-- `GROUP_VALUE(N, B0, B1, B2)`: a byte missing from a short group is zero bits, whatever its lane holds (R82). -/
def groupValue (n : Nat) (b0 b1 b2 : Byte) : BitVec 24 :=
  b0 ++ (if 2 ≤ n then b1 else 0x00#8) ++ (if n = 3 then b2 else 0x00#8)

/-- `ik = (v >> (18 - 6k)) & 0x3F` (R82). -/
def groupIndex (v : BitVec 24) (k : Nat) : Index := (v >>> (18 - 6 * k)).setWidth 6

/-- `Sk`: PAD in the last `3 - N` positions, the ROM's symbol in the others (R83, R84). -/
def groupSymbol (n : Nat) (v : BitVec 24) (k : Nat) : Byte :=
  if 4 - (3 - n) ≤ k then pad else alphabet (groupIndex v k)

/-- `S0 ++ S1 ++ S2 ++ S3` (R68). -/
def packSymbols (s0 s1 s2 s3 : Byte) : Word := s0 ++ s1 ++ s2 ++ s3

/-- `ENCODE_GROUP(N, B0, B1, B2)` as its response data word (R81). -/
def encodeGroup (n : Nat) (b0 b1 b2 : Byte) : Word :=
  let v := groupValue n b0 b1 b2
  packSymbols (groupSymbol n v 0) (groupSymbol n v 1) (groupSymbol n v 2) (groupSymbol n v 3)

/-- `acc_t`: the 6 bits of IDX appended at the low end of the accumulator (R106). -/
def accShifted (s : State) (idx : Index) : Nat := s.acc.toNat * 64 + idx.toNat

/-- `cnt_t = s.CNT + 6` (R106). -/
def cntShifted (s : State) : Nat := s.cnt.toNat + 6

/-- `BV`: the shift-in leaves 8 or more bits buffered, so a byte is emitted (R106). -/
def emitsByte (s : State) : Bool := decide (8 ≤ cntShifted s)

/-- `BYTE`: the top 8 buffered bits, or 0x00 when none is emitted (R102, R106). -/
def emittedByte (s : State) (idx : Index) : Byte :=
  if emitsByte s then BitVec.ofNat 8 (accShifted s idx >>> (cntShifted s - 8)) else 0x00#8

/-- CNT after the shift-in and the extraction (R102, R106). -/
def cntNext (s : State) : BitVec 4 :=
  if emitsByte s then BitVec.ofNat 4 (cntShifted s - 8) else BitVec.ofNat 4 (cntShifted s)

/-- ACC after the shift-in and the extraction: the emitted bits are removed (R102, R106). -/
def accNext (s : State) (idx : Index) : BitVec 12 :=
  if emitsByte s then BitVec.ofNat 12 (accShifted s idx % 2 ^ (cntShifted s - 8))
  else BitVec.ofNat 12 (accShifted s idx)

/-- The data word of DSYM: `STATUS[31:12] ++ 0b00 ++ PS ++ BV ++ BYTE` (R103). -/
def dsymData (status : BitVec 20) (ps bv : Bool) (byte : Byte) : Word :=
  status ++ 0b00#2 ++ BitVec.ofBool ps ++ BitVec.ofBool bv ++ byte

/-- The data word of RLUT: `zext_32(P ++ V ++ 0b00 ++ IDX)` (R110). -/
def rlutData (e : RevEntry) : Word :=
  (BitVec.ofBool e.pad ++ BitVec.ofBool e.valid ++ 0b00#2 ++ e.idx).setWidth 32

end Sys2Proof.Machine
end

