-- ==== Sys2Proof/Config.lean ====
section
/-! DEFINITION. What the spec leaves to an implementation or leaves open (00_scope.md R9; 93_implementation_defined.md).
Every constant marked opaque has no body: nothing can be proved of its value, so a claim holds for every value.
The other parameters of R9 are fixed by the spec and are the widths of Word.lean and Machine/State.lean. -/

namespace Sys2Proof

/-- The cycles of `LATENCY` beyond the first (R9, 92_eei_decisions.md D20: OPEN). -/
opaque Config.latencyBeyondOne : Nat

/-- `LATENCY`: cycles from command acceptance to response valid, at least 1 (R9). No rule reads it (R178). -/
def Config.latency : Nat := Config.latencyBeyondOne + 1

/-- What `ACC` holds after the n-th loss of power, before a reset (70_reset_and_hazards.md R174: no value). Log entry 8. -/
opaque Config.powerUpAcc : Nat → BitVec 12

/-- What `CNT` holds after the n-th loss of power, before a reset (R174). Log entry 8. -/
opaque Config.powerUpCnt : Nat → BitVec 4

/-- What `ERR` holds after the n-th loss of power, before a reset (R174). Log entry 8. -/
opaque Config.powerUpErr : Nat → Bool

/-- What `PADC` holds after the n-th loss of power, before a reset (R174). Log entry 8. -/
opaque Config.powerUpPadc : Nat → BitVec 2

/-- What `IPAD` holds after the n-th loss of power, before a reset (R174). Log entry 8. -/
opaque Config.powerUpIpad : Nat → Bool

/-- The low seven bits of the code the host presents for a character that is not ASCII: "any code in
0x80..0xFF" (42_host_transactions.md R134). Its argument is the character's code point. Log entry 13. -/
opaque Config.nonAsciiLow : Nat → BitVec 7

end Sys2Proof
end

