-- ==== Sys2Proof/Machine/Flags.lean ====
section
/-! DEFINITION. The status word (10_state.md R29), the flag and counter rules of DSYM (41_decoder.md R105, R106), and the
decoder invariant (10_state.md R28). -/

namespace Sys2Proof.Machine

/-- The decoder invariant `INV` of R28: CNT is 0, 2, 4 or 6 and ACC has no bit at or above CNT. -/
abbrev DecoderInv (s : State) : Prop :=
  (s.cnt = 0#4 ∨ s.cnt = 2#4 ∨ s.cnt = 4#4 ∨ s.cnt = 6#4) ∧ s.acc.toNat < 2 ^ s.cnt.toNat

/-- `STATUS(s)[31:12]`: ERR, IPAD, PADC, CNT, ACC (R29). -/
def statusBits (s : State) : BitVec 20 :=
  BitVec.ofBool s.err ++ BitVec.ofBool s.ipad ++ s.padc ++ s.cnt ++ s.acc

/-- `STATUS(s)` (R29). -/
def statusWord (s : State) : Word := statusBits s ++ 0#12

/-- `min(s.PADC + 1, 3)` (R105). -/
def padcNext (s : State) : BitVec 2 := BitVec.ofNat 2 (min (s.padc.toNat + 1) 3)

/-- IPAD after an alphabet symbol: set if a padding symbol was counted earlier in the transaction (R106). -/
def ipadNext (s : State) : Bool := s.ipad || decide (s.padc ≠ 0#2)

/-- `RSP_CODE` as its two bits; 0b11 is reserved and no code has it (30_encoding.md R67). -/
def rspBits : RspCode → BitVec 2
  | .ok => 0b00#2
  | .invalidCharacter => 0b01#2
  | .illegalCommand => 0b10#2

end Sys2Proof.Machine
end

