-- ==== Sys2Proof/Machine/Ops.lean ====
section
/-! DEFINITION. The shared operations over the state: answering a command, the two errors (60_exceptions.md R151, R152),
clearing the decoder (41_decoder.md R101), reset (70_reset_and_hazards.md R171) and loss of power (60_exceptions.md R163).
The block has no addressed memory (20_memory.md R41), so no operation here reads or writes one. -/

namespace Sys2Proof.Machine

/-- `respond(rc, data)`: the command's single response, taken by the host (00_scope.md R11). -/
def respond (s : State) (code : RspCode) (data : Word) : State :=
  { s with responses := s.responses ++ [⟨code, data⟩] }

/-- A command completes with its registers as in `s` and this response. -/
def answer (s : State) (code : RspCode) (data : Word) : Result := .next (respond s code data)

/-- Before the first reset no command has a meaning (70_reset_and_hazards.md R174). -/
def afterReset (s : State) (r : Result) : Result := if s.rstDone then r else .refused .beforeReset

/-- `raise InvalidCharacter` in DSYM: ERR is set and nothing else changes, and the response is INVALID_CHARACTER with
`STATUS(s')[31:12] ++ 0x000` (00_scope.md R11, 41_decoder.md R104, 60_exceptions.md R151, R155). There is no handler,
no saved state and no return: DEND, DINIT or reset leave the error state (R156). -/
def raiseInvalidCharacter (s : State) : Result :=
  let s' := { s with err := true }
  answer s' .invalidCharacter (statusBits s' ++ 0x000#12)

/-- `raise IllegalCommand`: no state changes, and the response is ILLEGAL_COMMAND, 0x00000000 (R152). -/
def raiseIllegalCommand (s : State) : Result :=
  afterReset s (answer s .illegalCommand 0x00000000#32)

/-- All five decoder registers to 0, as DINIT and DEND do (41_decoder.md R101, R108). -/
def clearDecoder (s : State) : State :=
  { s with acc := 0x000#12, cnt := 0#4, err := false, padc := 0#2, ipad := false }

/-- Reset: the registers take their reset values, RST_DONE is set, and a command in flight is discarded with no
response (10_state.md R33, 70_reset_and_hazards.md R171, R173). -/
def assertReset (s : State) : State :=
  { clearDecoder s with rstDone := true, inFlight := none }

/-- Loss of power: every register loses its value, RST_DONE is 0 at the next power-up, and a command in flight is gone
(10_state.md R32, R33, 60_exceptions.md R163). The registers hold free values that no command can read (R174). -/
def losePower (s : State) : State :=
  { s with
    acc := Config.powerUpAcc s.freeCount
    cnt := Config.powerUpCnt s.freeCount
    err := Config.powerUpErr s.freeCount
    padc := Config.powerUpPadc s.freeCount
    ipad := Config.powerUpIpad s.freeCount
    rstDone := false
    inFlight := none
    freeCount := s.freeCount + 1 }

/-- The machine at its first power-up, before any reset (10_state.md R32, R33, 70_reset_and_hazards.md R175). -/
def powerUp : State := losePower State.reset

end Sys2Proof.Machine
end

