-- ==== Sys2Proof/Machine/Decoder.lean ====
section
/-! DEFINITION. The meanings of the decoder commands DINIT, DSYM, DEND, STAT and RLUT (41_decoder.md R101 to R110). -/

namespace Sys2Proof.Machine

/-- DINIT (R101): OK with the status it found, even when ERR = 1; the decoder is cleared. -/
def execDinit (s : State) : Result :=
  afterReset s (answer (clearDecoder s) .ok (statusWord s))

/-- The registers after an alphabet symbol (R106). -/
def shiftIn (s : State) (idx : Index) : State :=
  { s with acc := accNext s idx, cnt := cntNext s, ipad := ipadNext s }

/-- DSYM with an alphabet symbol (R106). Outside `INV` the spec gives the state no meaning (10_state.md R28). -/
def presentSymbol (s : State) (idx : Index) : Result :=
  if DecoderInv s then
    let s' := shiftIn s idx
    answer s' .ok (dsymData (statusBits s') false (emitsByte s) (emittedByte s idx))
  else .refused .outsideInv

/-- DSYM with the padding symbol (R105). -/
def presentPad (s : State) : Result :=
  let s' := { s with padc := padcNext s }
  answer s' .ok (dsymData (statusBits s') true false 0x00#8)

/-- DSYM (R102): the sticky error first (R104), then an alphabet symbol, the padding symbol, or an invalid symbol. -/
def execDsym (sym : Byte) (s : State) : Result :=
  afterReset s <|
    if s.err then raiseInvalidCharacter s
    else if (rev sym).valid then presentSymbol s (rev sym).idx
    else if (rev sym).pad then presentPad s
    else raiseInvalidCharacter s

/-- DEND (R108): INVALID_CHARACTER when the transaction failed, else OK, with the status it found; the decoder is
cleared. -/
def execDend (s : State) : Result :=
  afterReset s (answer (clearDecoder s) (if s.err then .invalidCharacter else .ok) (statusWord s))

/-- STAT (R109): OK with the status, even when ERR = 1. -/
def execStat (s : State) : Result :=
  afterReset s (answer s .ok (statusWord s))

/-- RLUT (R110): P, V and IDX of the code; an invalid code is reported, not raised. -/
def execRlut (sym : Byte) (s : State) : Result :=
  afterReset s (answer s .ok (rlutData (rev sym)))

end Sys2Proof.Machine
end

