-- ==== Sys2Proof/Machine/Encoder.lean ====
section
/-! DEFINITION. The meanings of the encoder commands ENC.1, ENC.2, ENC.3 and ALPH (40_encoder.md R85 to R89). -/

namespace Sys2Proof.Machine

/-- ENC.1 (R87): the lanes B1 and B2 are zero fill. -/
def execEnc1 (b0 : Byte) (s : State) : Result :=
  afterReset s (answer s .ok (encodeGroup 1 b0 0x00#8 0x00#8))

/-- ENC.2 (R86): the lane B2 is zero fill. -/
def execEnc2 (b0 b1 : Byte) (s : State) : Result :=
  afterReset s (answer s .ok (encodeGroup 2 b0 b1 0x00#8))

/-- ENC.3 (R85). -/
def execEnc3 (b0 b1 b2 : Byte) (s : State) : Result :=
  afterReset s (answer s .ok (encodeGroup 3 b0 b1 b2))

/-- ALPH (R89): `respond(OK, zext_32(ALPHABET[IDX]))`. -/
def execAlph (idx : Index) (s : State) : Result :=
  afterReset s (answer s .ok ((alphabet idx).setWidth 32))

end Sys2Proof.Machine
end

