-- ==== Sys2Proof/Machine/Dispatch.lean ====
section
/-! DEFINITION. What each instruction does: one arm for each constructor of Instr. -/

namespace Sys2Proof.Machine

/-- The command `i` performed in `s`: one atomic step with one response (00_scope.md R8). -/
def exec (i : Instr) (s : State) : Host.Outcome State Fault Refusal :=
  match i with
  | .enc1 b0 => Sys2Proof.Machine.execEnc1 b0 s
  | .enc2 b0 b1 => Sys2Proof.Machine.execEnc2 b0 b1 s
  | .enc3 b0 b1 b2 => Sys2Proof.Machine.execEnc3 b0 b1 b2 s
  | .dinit => Sys2Proof.Machine.execDinit s
  | .dsym sym => Sys2Proof.Machine.execDsym sym s
  | .dend => Sys2Proof.Machine.execDend s
  | .stat => Sys2Proof.Machine.execStat s
  | .alph idx => Sys2Proof.Machine.execAlph idx s
  | .rlut sym => Sys2Proof.Machine.execRlut sym s

end Sys2Proof.Machine
end

