-- ==== Sys2Proof/Machine/Port.lean ====
section
/-! DEFINITION. The command and response ports at operation level: performing a command word, and taking the host's next
event (70_reset_and_hazards.md R171 to R174, R179; 42_host_transactions.md R141). -/

namespace Sys2Proof.Machine

/-- Performs a command word: the command it decodes to, or `IllegalCommand` (30_encoding.md R66). -/
def performWord (w : Word) (s : State) : Result :=
  match decode w with
  | .ok i => exec i s
  | .error _ => raiseIllegalCommand s

/-- The host issues a word and takes the response: acceptance and delivery are one atomic step (R8, R172). While another
command is in flight `cmd_ready` is 0, so the word is not taken and goes on waiting in the script (R172). -/
def takeCommand (w : Word) (rest : List HostEvent) (s : State) : Result :=
  match s.inFlight with
  | none => performWord w { s with script := rest }
  | some _ => .next s

/-- The host issues a word and holds its response off. The command is in flight and has had no effect (10_state.md R32).
Before the first reset it is refused (R174); while another is in flight it is not taken (R172). -/
def takeOffer (w : Word) (rest : List HostEvent) (s : State) : Result :=
  match s.inFlight with
  | none => afterReset s (.next { s with script := rest, inFlight := some w })
  | some _ => .next s

/-- The host raises `rsp_ready`: the waiting response is delivered, and with it the whole effect of its command
(10_state.md R32). With no command in flight nothing happens (R172). -/
def takeAccept (rest : List HostEvent) (s : State) : Result :=
  match s.inFlight with
  | none => .next { s with script := rest }
  | some w => performWord w { s with script := rest, inFlight := none }

/-- One step: the host's next event. With nothing left to do the block does nothing and its registers keep their values
(60_exceptions.md R163). -/
def nextEvent (s : State) : Result :=
  match s.script with
  | [] => .next s
  | .command w :: rest => takeCommand w rest s
  | .offer w :: rest => takeOffer w rest s
  | .accept :: rest => takeAccept rest s
  | .reset :: rest => .next (assertReset { s with script := rest })
  | .powerCycle :: rest => .next (losePower { s with script := rest })

/-- The event issues a command word, its response taken at once or held off (42_host_transactions.md R142). -/
def issuesCommand : HostEvent → Bool
  | .command _ => true
  | .offer _ => true
  | .accept => false
  | .reset => false
  | .powerCycle => false

/-- The host issues `w` next, with no other command in flight. -/
def placeCommand (w : Word) (s : State) : State :=
  { s with script := .command w :: s.script, inFlight := none }

end Sys2Proof.Machine
end

