-- ==== Sys2Proof/Machine/Transactions.lean ====
section
/-! DEFINITION. The host programs that make the source's `encode` and `decode` out of the block's commands
(42_host_transactions.md R131, R134), over `step`. Texts and byte sequences are lists, first in order first. -/

namespace Sys2Proof.Machine

/-- The host issues a command and takes its response, with what is left of the machine. None where the block answers
nothing: before the first reset, or while another command is in flight. Log entry 14. -/
def issue (i : Instr) (s : State) : Option (Response × State) :=
  match step { s with script := .command (encode i) :: s.script } with
  | .next t => (t.responses[s.responses.length]?).map fun r => (r, t)
  | .fault _ => none
  | .refused _ => none

/-- Issues the commands in order and collects their responses in order. -/
def issueAll : List Instr → State → Option (List Response × State)
  | [], s => some ([], s)
  | i :: is, s =>
    match issue i s with
    | none => none
    | some (r, t) => (issueAll is t).map fun p => (r :: p.1, p.2)

/-- The commands of the encode program: groups in input order, the final one of 1 or 2 bytes; none for an empty input
(R131, R133). -/
def encodeProgram : List Byte → List Instr
  | [] => []
  | [b0] => [.enc1 b0]
  | [b0, b1] => [.enc2 b0 b1]
  | b0 :: b1 :: b2 :: rest => .enc3 b0 b1 b2 :: encodeProgram rest

/-- The four symbols of an ENC response, S0 first: d[31:24], d[23:16], d[15:8], d[7:0] (R131, 20_memory.md R46). -/
def symbolsOf (d : Word) : List Byte :=
  [d.extractLsb' 24 8, d.extractLsb' 16 8, d.extractLsb' 8 8, d.extractLsb' 0 8]

/-- The host encode program `encode(data)` (R131), with what is left of the machine. -/
def hostEncode (data : List Byte) (s : State) : Option (List Byte × State) :=
  (issueAll (encodeProgram data) s).map fun p => (p.1.flatMap fun r => symbolsOf r.data, p.2)

/-- What `decode` returns: the bytes, or the source's error (R134). -/
inductive DecodeResult where
  | bytes (out : List Byte)
  | invalidCharacter
  deriving DecidableEq, Repr

/-- The byte a DSYM response carries: BYTE when BV = 1 (R134, 41_decoder.md R103). -/
def byteOf (d : Word) : List Byte :=
  if d.getLsbD 8 then [d.extractLsb' 0 8] else []

/-- Issues one DSYM per character in order, and stops at the first INVALID_CHARACTER (R134): the bytes collected. -/
def presentText : List Byte → State → Option (List Byte × State)
  | [], s => some ([], s)
  | c :: cs, s =>
    match issue (.dsym c) s with
    | none => none
    | some (r, t) =>
      if r.code = .invalidCharacter then some ([], t)
      else (presentText cs t).map fun p => (byteOf r.data ++ p.1, p.2)

/-- Issues one DSYM for every character, whatever the responses: "Whether the host breaks early or presents the
remaining characters, the result is the same" (R134). -/
def presentWholeText : List Byte → State → Option (List Byte × State)
  | [], s => some ([], s)
  | c :: cs, s =>
    match issue (.dsym c) s with
    | none => none
    | some (r, t) => (presentWholeText cs t).map fun p => (byteOf r.data ++ p.1, p.2)

/-- DEND, and what the host returns: the collected bytes, or the error with every byte discarded (R134, R135). -/
def finishDecode (collected : Option (List Byte × State)) : Option (DecodeResult × State) :=
  match collected with
  | none => none
  | some (out, t) =>
    (issue .dend t).map fun p =>
      (if p.1.code = .invalidCharacter then .invalidCharacter else .bytes out, p.2)

/-- The host decode program `decode(t)` over character codes (R134): DINIT, one DSYM per character, DEND. -/
def hostDecode (text : List Byte) (s : State) : Option (DecodeResult × State) :=
  match issue .dinit s with
  | none => none
  | some (_, t) => finishDecode (presentText text t)

/-- The decode program of a host that presents every character and does not stop early (R134). -/
def hostDecodeWhole (text : List Byte) (s : State) : Option (DecodeResult × State) :=
  match issue .dinit s with
  | none => none
  | some (_, t) => finishDecode (presentWholeText text t)

/-- `CHARCODE(ch)`: the ASCII code of an ASCII character, and some code in 0x80..0xFF for any other (R134). -/
def charCode (ch : Char) : Byte :=
  if ch.toNat < 0x80 then BitVec.ofNat 8 ch.toNat else 1#1 ++ Config.nonAsciiLow ch.toNat

/-- `decode` of a text of characters (R134). -/
def hostDecodeText (text : List Char) (s : State) : Option (DecodeResult × State) :=
  hostDecode (text.map charCode) s

/-- The source's decode algorithm, with its unbounded accumulator, on the alphabet indices of a text: the bytes emitted
from accumulator `b` with `n` valid low-order bits (41_decoder.md R106, the source's words quoted there). -/
def sourceDecode : Nat → Nat → List Index → List Byte
  | _, _, [] => []
  | b, n, i :: is =>
    if 8 ≤ n + 6 then
      BitVec.ofNat 8 ((b * 64 + i.toNat) >>> (n + 6 - 8)) :: sourceDecode (b * 64 + i.toNat) (n + 6 - 8) is
    else sourceDecode (b * 64 + i.toNat) (n + 6) is

/-- The indices of the alphabet symbols of a text, in order: padding symbols are skipped wherever they stand (R140). -/
def alphabetIndices (text : List Byte) : List Index :=
  (text.filter fun c => (rev c).valid).map fun c => (rev c).idx

end Sys2Proof.Machine
end

