-- ==== Sys2Proof/WellFormed.lean ====
section
/-! DEFINITION. Assembler lines as written, and the operand checks of 30_encoding.md R69. An `Instr` needs no
check of its own: its fields have the widths of R62, so an operand out of range cannot be written in one. -/

namespace Sys2Proof

/-- One line of assembler (R69) or one pseudo-instruction (R70), with its operands as the numbers written.
A character literal stands here as its character code. -/
inductive AsmLine where
  | enc1 (b0 : Nat)
  | enc2 (b0 b1 : Nat)
  | enc3 (b0 b1 b2 : Nat)
  | dinit
  | dsym (s : Nat)
  | dend
  | stat
  | alph (i : Nat)
  | rlut (s : Nat)
  /-- `.word w`: any 32-bit value, which may be illegal. -/
  | word (w : Nat)
  /-- `ENC b0[, b1[, b2]]` (R70). -/
  | enc (bs : List Nat)
  /-- `ENCS "bytes"` or `ENCS [x0, x1, ...]` (R70). -/
  | encs (bs : List Nat)
  /-- `DSTR "text"` (R70). -/
  | dstr (text : List Char)
  /-- `DECODE "text"` (R70). -/
  | decode (text : List Char)
  deriving DecidableEq, Repr

/-- A byte or symbol operand is a number in 0..255 (R69). -/
def byteOperandOk (n : Nat) : Bool := decide (n < 256)

/-- An index operand is a number in 0..63 (R69). -/
def indexOperandOk (n : Nat) : Bool := decide (n < 64)

/-- The operands of the line are in range; a line that fails this is an assembly error, not a command (R69). -/
def AsmLine.wellFormed : AsmLine → Bool
  | .enc1 b0 => byteOperandOk b0
  | .enc2 b0 b1 => byteOperandOk b0 && byteOperandOk b1
  | .enc3 b0 b1 b2 => byteOperandOk b0 && byteOperandOk b1 && byteOperandOk b2
  | .dinit => true
  | .dsym s => byteOperandOk s
  | .dend => true
  | .stat => true
  | .alph i => indexOperandOk i
  | .rlut s => byteOperandOk s
  | .word w => decide (w < 2 ^ 32)
  | .enc bs => decide (1 ≤ bs.length) && decide (bs.length ≤ 3) && bs.all byteOperandOk
  | .encs bs => bs.all byteOperandOk
  | .dstr _ => true
  | .decode _ => true

end Sys2Proof
end

