-- ==== Sys2Proof/Machine/Assembler.lean ====
section
/-! DEFINITION. The assembler: the words of each form (30_encoding.md R69), the expansions of the pseudo-instructions (R70),
and reading one line of text. Nothing here is part of the block: "A pseudo-instruction is not a command word" (R70). -/

namespace Sys2Proof.Machine

/-- The command of a group of 1 to 3 bytes: the forms of `ENC` (R70); no command for another count. -/
def groupWords : List Nat → List Word
  | [b0] => [encode (.enc1 (BitVec.ofNat 8 b0))]
  | [b0, b1] => [encode (.enc2 (BitVec.ofNat 8 b0) (BitVec.ofNat 8 b1))]
  | [b0, b1, b2] => [encode (.enc3 (BitVec.ofNat 8 b0) (BitVec.ofNat 8 b1) (BitVec.ofNat 8 b2))]
  | _ => []

/-- `DSTR`: one DSYM per character, in order (R70). -/
def textWords (text : List Char) : List Word := text.map fun ch => encode (.dsym (charCode ch))

/-- The words of a line whose operands are in range (R69, R70). -/
def expandLine : AsmLine → List Word
  | .enc1 b0 => groupWords [b0]
  | .enc2 b0 b1 => groupWords [b0, b1]
  | .enc3 b0 b1 b2 => groupWords [b0, b1, b2]
  | .dinit => [encode .dinit]
  | .dsym s => [encode (.dsym (BitVec.ofNat 8 s))]
  | .dend => [encode .dend]
  | .stat => [encode .stat]
  | .alph i => [encode (.alph (BitVec.ofNat 6 i))]
  | .rlut s => [encode (.rlut (BitVec.ofNat 8 s))]
  | .word w => [BitVec.ofNat 32 w]
  | .enc bs => groupWords bs
  | .encs bs => (encodeProgram (bs.map (BitVec.ofNat 8))).map encode
  | .dstr text => textWords text
  | .decode text => encode .dinit :: textWords text ++ [encode .dend]

/-- Assembles a line: none is an assembly error, an operand out of range (R69). -/
def assemble (l : AsmLine) : Option (List Word) :=
  match l.wellFormed with
  | true => some (expandLine l)
  | false => none

/-- The tokens of a line. -/
inductive AsmToken where
  | name (cs : List Char)
  | num (n : Nat)
  | str (cs : List Char)
  | comma
  | openBracket
  | closeBracket
  deriving DecidableEq, Repr

/-- Where the reader stands: between tokens, in a word, in a string, after the opening quote of a character literal, or
after its character. Words and strings are held last character first. -/
inductive AsmMode where
  | between
  | word (cs : List Char)
  | str (cs : List Char)
  | quote
  | char (c : Char)
  deriving DecidableEq, Repr

/-- The value of a digit in base 10 or 16. -/
def digitValue (c : Char) : Option Nat :=
  if '0'.toNat ≤ c.toNat ∧ c.toNat ≤ '9'.toNat then some (c.toNat - '0'.toNat)
  else if 'a'.toNat ≤ c.toNat ∧ c.toNat ≤ 'f'.toNat then some (c.toNat - 'a'.toNat + 10)
  else if 'A'.toNat ≤ c.toNat ∧ c.toNat ≤ 'F'.toNat then some (c.toNat - 'A'.toNat + 10)
  else none

/-- The number written by digits of base `base`, after `acc`. -/
def digitsValue (base : Nat) : Nat → List Char → Option Nat
  | acc, [] => some acc
  | acc, c :: cs =>
    match digitValue c with
    | none => none
    | some d => if d < base then digitsValue base (acc * base + d) cs else none

/-- The token of a word: a number where it begins with a digit (decimal, or hexadecimal after 0x), else a name (R69). -/
def wordToken : List Char → Option AsmToken
  | [] => none
  | '0' :: 'x' :: c :: cs => (digitsValue 16 0 (c :: cs)).map .num
  | c :: cs =>
    if '0'.toNat ≤ c.toNat ∧ c.toNat ≤ '9'.toNat then (digitsValue 10 0 (c :: cs)).map .num
    else some (.name (c :: cs))

/-- A character that stands in a mnemonic or a number. -/
def isWordChar (c : Char) : Bool :=
  (digitValue c).isSome || decide ('A'.toNat ≤ c.toNat ∧ c.toNat ≤ 'Z'.toNat)
    || decide ('a'.toNat ≤ c.toNat ∧ c.toNat ≤ 'z'.toNat) || c == '.'

/-- The token of a character that is a token by itself. -/
def markToken (c : Char) : Option AsmToken :=
  if c = ',' then some .comma
  else if c = '[' then some .openBracket
  else if c = ']' then some .closeBracket
  else none

/-- What the word read so far adds before the tokens that follow it. -/
def closeWord (cs : List Char) (rest : Option (List AsmToken)) : Option (List AsmToken) :=
  match wordToken cs.reverse, rest with
  | some t, some ts => some (t :: ts)
  | _, _ => none

/-- The mode after a character that ends any word before it, with the token it is; none where no token begins so. -/
def startMode (c : Char) : Option (List AsmToken × AsmMode) :=
  if c = ' ' ∨ c = '\t' then some ([], .between)
  else if c = '"' then some ([], .str [])
  else if c = '\'' then some ([], .quote)
  else if isWordChar c then some ([], .word [c])
  else (markToken c).map fun t => ([t], .between)

/-- The tokens of a line (R69): a `;` outside a literal starts a comment. None where a literal is not closed, where a
character literal is not ASCII, or where a character begins no token. A character literal is a number wherever a number
may stand, the index of `ALPH` and the value of `.word` among them: R69 gives the literal for byte and symbol operands,
calls an index "a number" and gives no form for `w`. DESIGN CHOICE, unsafe, log entry 16. -/
def tokens : AsmMode → List Char → Option (List AsmToken)
  | .between, [] => some []
  | .word cs, [] => closeWord cs (some [])
  | .str _, [] => none
  | .quote, [] => none
  | .char _, [] => none
  | .str cs, c :: rest =>
    if c = '"' then (tokens .between rest).map fun ts => .str cs.reverse :: ts else tokens (.str (c :: cs)) rest
  | .quote, c :: rest => if c.toNat < 0x80 then tokens (.char c) rest else none
  | .char ch, c :: rest =>
    if c = '\'' then (tokens .between rest).map fun ts => .num ch.toNat :: ts else none
  | .between, c :: rest =>
    if c = ';' then some []
    else
      match startMode c with
      | none => none
      | some (ts, m) => (tokens m rest).map fun us => ts ++ us
  | .word cs, c :: rest =>
    if c = ';' then closeWord cs (some [])
    else if isWordChar c then tokens (.word (c :: cs)) rest
    else
      match startMode c with
      | none => none
      | some (ts, m) => closeWord cs ((tokens m rest).map fun us => ts ++ us)

/-- Operands separated by commas, at least one (R69). -/
def operands : List AsmToken → Option (List Nat)
  | [.num n] => some [n]
  | .num n :: .comma :: rest => (operands rest).map fun ns => n :: ns
  | _ => none

/-- The operands of `ENCS [x0, x1, ...]`, up to the closing bracket, which ends the line (R70). -/
def bracketed : List AsmToken → Option (List Nat)
  | [.closeBracket] => some []
  | ts =>
    match ts.reverse with
    | .closeBracket :: inner => operands inner.reverse
    | _ => none

/-- The bytes of `ENCS "bytes"`: the ASCII codes of its characters (00_scope.md R13). -/
def asciiBytes (cs : List Char) : Option (List Nat) :=
  if cs.all fun c => decide (c.toNat < 0x80) then some (cs.map Char.toNat) else none

/-- A command with its operands as numbers, chosen by the mnemonic and the count (R69, R70). -/
def numericLine (mnemonic : List Char) (ns : List Nat) : Option AsmLine :=
  if mnemonic = ['E', 'N', 'C'] then some (.enc ns)
  else
    match ns with
    | [] =>
      if mnemonic = ['D', 'I', 'N', 'I', 'T'] then some .dinit
      else if mnemonic = ['D', 'E', 'N', 'D'] then some .dend
      else if mnemonic = ['S', 'T', 'A', 'T'] then some .stat
      else none
    | [a] =>
      if mnemonic = ['E', 'N', 'C', '.', '1'] then some (.enc1 a)
      else if mnemonic = ['D', 'S', 'Y', 'M'] then some (.dsym a)
      else if mnemonic = ['A', 'L', 'P', 'H'] then some (.alph a)
      else if mnemonic = ['R', 'L', 'U', 'T'] then some (.rlut a)
      else if mnemonic = ['.', 'w', 'o', 'r', 'd'] then some (.word a)
      else none
    | [a, b] => if mnemonic = ['E', 'N', 'C', '.', '2'] then some (.enc2 a b) else none
    | [a, b, c] => if mnemonic = ['E', 'N', 'C', '.', '3'] then some (.enc3 a b c) else none
    | _ => none

/-- A pseudo-instruction with a string operand (R70). -/
def stringLine (mnemonic cs : List Char) : Option AsmLine :=
  if mnemonic = ['E', 'N', 'C', 'S'] then (asciiBytes cs).map .encs
  else if mnemonic = ['D', 'S', 'T', 'R'] then some (.dstr cs)
  else if mnemonic = ['D', 'E', 'C', 'O', 'D', 'E'] then some (.decode cs)
  else none

/-- The line its tokens spell: none is an assembly error. -/
def lineOfTokens : List AsmToken → Option AsmLine
  | [.name m] => numericLine m []
  | [.name m, .str cs] => stringLine m cs
  | .name m :: .openBracket :: ts => if m = ['E', 'N', 'C', 'S'] then (bracketed ts).map .encs else none
  | .name m :: ts =>
    match operands ts with
    | none => none
    | some ns => numericLine m ns
  | _ => none

/-- The words of one line of assembler text: none is an assembly error, and a line with nothing but a comment has no
words (R69). -/
def assembleText (cs : List Char) : Option (List Word) :=
  match tokens .between cs with
  | none => none
  | some [] => some []
  | some ts =>
    match lineOfTokens ts with
    | none => none
    | some l => assemble l

end Sys2Proof.Machine
end

