-- ==== Sys2Proof/Safety.lean ====
section
/-! DEFINITION. What counts as a safe state: the invariants the spec gives the whole machine. -/

namespace Sys2Proof.Machine

/-- A safe state: once the block has been reset the decoder invariant holds (10_state.md R28), and a command is in flight
only in a block that has been reset (70_reset_and_hazards.md R174). Before the reset the registers hold no value (R33),
so nothing is asked of them. -/
abbrev Safe (s : State) : Prop :=
  (s.rstDone = true → DecoderInv s) ∧ (s.inFlight ≠ none → s.rstDone = true)

/-- The clean state of the decoder: what reset, DINIT and DEND leave (95_test_vectors.md, notation). -/
abbrev Clean (s : State) : Prop :=
  s.acc = 0x000#12 ∧ s.cnt = 0#4 ∧ s.err = false ∧ s.padc = 0#2 ∧ s.ipad = false

/-- The block can take a command at once: it has been reset and none is in flight (R172, R174). -/
abbrev Ready (s : State) : Prop := s.rstDone = true ∧ s.inFlight = none

/-- The run has ended: "the host has no further command to issue and every issued command has its response"
(42_host_transactions.md R142). What else the host may still do, a reset or a loss of power, issues no command.
R142 says nothing of a run in which reset is asserted while a command is in flight: here the discarded command is owed
no response, so such a run has ended too once nothing is in flight and no command is left. DESIGN CHOICE, unsafe,
log entry 23. -/
abbrev RunEnded (s : State) : Prop := (∀ e ∈ s.script, issuesCommand e = false) ∧ s.inFlight = none

end Sys2Proof.Machine
end

