-- ==== Sys2Proof/Certificates/Slice0/Obligations.lean ====
section
/-! DEFINITION. The statements for the provers: what the spec's numbered rules say of the model. Where a conclusion reads
`exec i s = .next (respond s' code data)`, it is the instruction's frame as well: nothing but the fields in which `s'`
differs from `s`, and the one new response at the end of `responses`, changes. The block has no addressed memory
(20_memory.md R41), so no frame speaks of one. -/

open Sys2Proof Sys2Proof.Machine

/-! ## Words and commands -/

/-- Command words written out from the encodings of R62 and R65, among them the spec's own examples, decode to the
commands they stand for, ignored bits set or not; and illegal words are rejected. Model sanity. -/
def Obligations.SpecWordsDecode : Prop :=
  decode 0x11660000#32 = .ok (.enc1 0x66#8) ∧ decode 0x1166FFFF#32 = .ok (.enc1 0x66#8) ∧
  decode 0x12666F00#32 = .ok (.enc2 0x66#8 0x6F#8) ∧ decode 0x1E666FFF#32 = .ok (.enc2 0x66#8 0x6F#8) ∧
  decode 0x13666F6C#32 = .ok (.enc3 0x66#8 0x6F#8 0x6C#8) ∧ decode 0x1F666F6C#32 = .ok (.enc3 0x66#8 0x6F#8 0x6C#8) ∧
  decode 0x20000000#32 = .ok .dinit ∧ decode 0x2FFFFFFF#32 = .ok .dinit ∧
  decode 0x3000005A#32 = .ok (.dsym 0x5A#8) ∧ decode 0x3FFFFF5A#32 = .ok (.dsym 0x5A#8) ∧
  decode 0x40000000#32 = .ok .dend ∧ decode 0x50000000#32 = .ok .stat ∧
  decode 0x60000019#32 = .ok (.alph 25#6) ∧ decode 0x60000040#32 = .ok (.alph 0#6) ∧
  decode 0x7000005A#32 = .ok (.rlut 0x5A#8) ∧
  decode 0x10660000#32 = .error .emptyGroup ∧ decode 0x00000000#32 = .error (.illegalOpcode 0x0#4) ∧
  decode 0x80000000#32 = .error (.illegalOpcode 0x8#4) ∧ decode 0xF0000000#32 = .error (.illegalOpcode 0xF#4)

/-- Decode and encode agree for every command and every operand value, and the words that decode to a command are exactly
those that agree with its encoding on the bits it reads (R62 to R66, R69). -/
def Obligations.DecodeEncodeRoundTrip : Prop :=
  ∀ i : Instr, decode (encode i) = .ok i ∧ ∀ w : Word, decode w = .ok i ↔ w &&& readMask i = encode i

/-- R63: two words that differ in ignored bits only are the same command, with the same response and the same effect; the
unused lanes of ENC.1 and ENC.2 are treated as zero bits; and the assembler's word is 0 in every ignored bit and lane. -/
def Obligations.IgnoredBitsHaveNoEffect : Prop :=
  (∀ (i : Instr) (w w' : Word) (s : State), decode w = .ok i → w' &&& readMask i = w &&& readMask i →
    decode w' = .ok i ∧ performWord w' s = performWord w s) ∧
  (∀ b0 b1 b2 : Byte, encodeGroup 1 b0 b1 b2 = encodeGroup 1 b0 0x00#8 0x00#8 ∧
    encodeGroup 2 b0 b1 b2 = encodeGroup 2 b0 b1 0x00#8) ∧
  (∀ i : Instr, encode i &&& ~~~ readMask i = 0#32) ∧
  (∀ (b0 b1 b2 sym : Byte) (idx : Index),
    ~~~ readMask (.enc1 b0) = 0x0C00FFFF#32 ∧ ~~~ readMask (.enc2 b0 b1) = 0x0C0000FF#32 ∧
    ~~~ readMask (.enc3 b0 b1 b2) = 0x0C000000#32 ∧ ~~~ readMask .dinit = 0x0FFFFFFF#32 ∧
    ~~~ readMask .dend = 0x0FFFFFFF#32 ∧ ~~~ readMask .stat = 0x0FFFFFFF#32 ∧
    ~~~ readMask (.dsym sym) = 0x0FFFFF00#32 ∧ ~~~ readMask (.rlut sym) = 0x0FFFFF00#32 ∧
    ~~~ readMask (.alph idx) = 0x0FFFFFC0#32)

/-- A word is illegal by R66. -/
abbrev isIllegalWord (w : Word) : Prop :=
  w.extractLsb' 28 4 = 0x0#4 ∨ 0x8 ≤ (w.extractLsb' 28 4).toNat ∨ (w.extractLsb' 28 4 = 0x1#4 ∧ w.extractLsb' 24 2 = 0b00#2)

/-- R65: each row of the opcode map. A word with a row's match under its mask is that command with the fields of its
format (R62); every command a word decodes to has its row's match under its mask; and the words of the rows marked
illegal decode to no command. -/
def Obligations.OpcodeMapRows : Prop :=
  ∀ w : Word,
    (w &&& 0xF3000000#32 = 0x11000000#32 → decode w = .ok (.enc1 (w.extractLsb' 16 8))) ∧
    (w &&& 0xF3000000#32 = 0x12000000#32 → decode w = .ok (.enc2 (w.extractLsb' 16 8) (w.extractLsb' 8 8))) ∧
    (w &&& 0xF3000000#32 = 0x13000000#32 →
      decode w = .ok (.enc3 (w.extractLsb' 16 8) (w.extractLsb' 8 8) (w.extractLsb' 0 8))) ∧
    (w &&& 0xF0000000#32 = 0x20000000#32 → decode w = .ok .dinit) ∧
    (w &&& 0xF0000000#32 = 0x30000000#32 → decode w = .ok (.dsym (w.extractLsb' 0 8))) ∧
    (w &&& 0xF0000000#32 = 0x40000000#32 → decode w = .ok .dend) ∧
    (w &&& 0xF0000000#32 = 0x50000000#32 → decode w = .ok .stat) ∧
    (w &&& 0xF0000000#32 = 0x60000000#32 → decode w = .ok (.alph (w.extractLsb' 0 6))) ∧
    (w &&& 0xF0000000#32 = 0x70000000#32 → decode w = .ok (.rlut (w.extractLsb' 0 8))) ∧
    (∀ i : Instr, decode w = .ok i → w &&& maskWord i = matchWord i) ∧
    (isIllegalWord w → ∃ e, decode w = .error e)

/-- The nine (match, mask) rows of R65. -/
def opcodeRows : List (Word × Word) :=
  [(0x11000000#32, 0xF3000000#32), (0x12000000#32, 0xF3000000#32), (0x13000000#32, 0xF3000000#32),
   (0x20000000#32, 0xF0000000#32), (0x30000000#32, 0xF0000000#32), (0x40000000#32, 0xF0000000#32),
   (0x50000000#32, 0xF0000000#32), (0x60000000#32, 0xF0000000#32), (0x70000000#32, 0xF0000000#32)]

/-- R66: a word is rejected exactly when it is illegal; every word is exactly one row of R65 or illegal; and an illegal
word, in any state after reset, answers ILLEGAL_COMMAND with 0 and changes nothing else. -/
def Obligations.IllegalWordsExactly : Prop :=
  ∀ w : Word,
    ((∃ e, decode w = .error e) ↔ isIllegalWord w) ∧
    (¬ isIllegalWord w → (opcodeRows.filter fun row => w &&& row.2 = row.1).length = 1) ∧
    (isIllegalWord w → (opcodeRows.filter fun row => w &&& row.2 = row.1) = []) ∧
    (isIllegalWord w → ∀ s : State, s.rstDone = true →
      performWord w s = .next (respond s .illegalCommand 0x00000000#32))

/-! ## Steps, the handshake, reset and power -/

/-- A step runs the decoded command: with a word to issue and none in flight, `step` is `exec` of the command it
decodes to, in the state with the word taken off the script; an illegal word (R66, R152) raises `IllegalCommand` there
instead. The model's own script is log entry 1. -/
def Obligations.StepRunsDecodedCommand : Prop :=
  ∀ (s : State) (w : Word) (rest : List HostEvent), s.script = .command w :: rest → s.inFlight = none →
    (∀ i, decode w = .ok i → step s = exec i { s with script := rest }) ∧
    (∀ e, decode w = .error e → step s = raiseIllegalCommand { s with script := rest })

/-- R172, R32: issuing a word with its response held off and taking the response afterwards is, after two steps, the one
atomic step of issuing it; after the first of the two it has had no effect on any register and no response is out. The
two host events are the model's (log entry 3). -/
def Obligations.OfferThenAcceptIsOneCommand : Prop :=
  ∀ (s : State) (w : Word) (rest : List HostEvent), Ready s → s.script = .offer w :: .accept :: rest →
    ∃ t, step s = .next t ∧ t = { s with script := .accept :: rest, inFlight := some w } ∧
      step t = step { s with script := .command w :: rest }

/-- R172, R179, with the model's host events (log entries 3, 4, 5): while a command is in flight no other is taken,
and nothing at all happens; and with none in flight, before the first reset too, raising `rsp_ready` does nothing but
that the event is used up. -/
def Obligations.CommandInFlightStalls : Prop :=
  (∀ (s : State) (v w : Word) (rest : List HostEvent), s.inFlight = some v →
    s.script = .command w :: rest ∨ s.script = .offer w :: rest → step s = .next s) ∧
  (∀ (s : State) (rest : List HostEvent), s.inFlight = none → s.script = .accept :: rest →
    step s = .next { s with script := rest })

/-- R33, R171, R173, the reset being the model's event of one step (log entry 11): from every state, before a first
reset and with a command in flight too, reset leaves the reset values, RST_DONE = 1 and no command in flight, and
delivers no response. -/
def Obligations.ResetFromAnyState : Prop :=
  ∀ (s : State) (rest : List HostEvent), s.script = .reset :: rest →
    ∃ t, step s = .next t ∧ t.acc = 0x000#12 ∧ t.cnt = 0#4 ∧ t.err = false ∧ t.padc = 0#2 ∧ t.ipad = false ∧
      t.rstDone = true ∧ t.inFlight = none ∧ t.script = rest ∧ t.responses = s.responses ∧ t.freeCount = s.freeCount

/-- The values of R33 in the state right after reset. That nothing is to be done and no response is out in it, so that
its script and its list of responses are empty, is the model's choice (log entries 1, 2). -/
def Obligations.ResetStateValues : Prop :=
  State.reset.acc = 0x000#12 ∧ State.reset.cnt = 0#4 ∧ State.reset.err = false ∧ State.reset.padc = 0#2 ∧
    State.reset.ipad = false ∧ State.reset.rstDone = true ∧ State.reset.inFlight = none ∧
    State.reset.script = [] ∧ State.reset.responses = []

/-- R174; that illegal and held words are among its commands is read from it (log entry 7): before the first reset every
command, legal or illegal, taken at once or held, is refused. -/
def Obligations.NoCommandBeforeReset : Prop :=
  ∀ s : State, s.rstDone = false →
    (∀ i : Instr, exec i s = .refused .beforeReset) ∧ (∀ w : Word, performWord w s = .refused .beforeReset) ∧
    (∀ (w : Word) (rest : List HostEvent), s.inFlight = none →
      s.script = .command w :: rest ∨ s.script = .offer w :: rest → step s = .refused .beforeReset)

/-- R175, from the model's power-up state (log entry 8): after power-up, whatever the registers hold, one reset makes
the block ready and its decoder clean. -/
def Obligations.BootNeedsOneReset : Prop :=
  powerUp.rstDone = false ∧ ∀ rest : List HostEvent,
    ∃ t, step { powerUp with script := .reset :: rest } = .next t ∧ Ready t ∧ Clean t ∧ t.script = rest ∧ t.responses = []

/-- R163, with the model's idle step (log entry 6): between commands nothing happens and every register keeps its
value; a loss of power leaves RST_DONE = 0, so that every command is refused until a reset. That a loss of power is an
event of one step is the model's (log entry 8). -/
def Obligations.RegistersPersistUntilPowerLoss : Prop :=
  (∀ s : State, s.script = [] → step s = .next s) ∧
  (∀ (s : State) (rest : List HostEvent), s.script = .powerCycle :: rest →
    ∃ t, step s = .next t ∧ t.rstDone = false ∧ t.inFlight = none ∧ t.script = rest ∧ t.responses = s.responses ∧
      ∀ i : Instr, exec i t = .refused .beforeReset)

/-! ## The two ROMs and the status word -/

/-- R23, an inference the spec marks as its own (from R22): the ROM by code range; the map from index to symbol is one
to one; PAD is 0x3D and no entry. -/
def Obligations.AlphabetByCodeRange : Prop :=
  pad = 0x3D#8 ∧
  (∀ i : Index,
    (i.toNat ≤ 25 → (alphabet i).toNat = 0x41 + i.toNat) ∧
    (26 ≤ i.toNat ∧ i.toNat ≤ 51 → (alphabet i).toNat = 0x61 + (i.toNat - 26)) ∧
    (52 ≤ i.toNat ∧ i.toNat ≤ 61 → (alphabet i).toNat = 0x30 + (i.toNat - 52)) ∧
    (i.toNat = 62 → alphabet i = 0x2B#8) ∧ (i.toNat = 63 → alphabet i = 0x2F#8) ∧ alphabet i ≠ pad) ∧
  (∀ i j : Index, alphabet i = alphabet j → i = j)

/-- R24: the contents of REV in every code range. -/
def Obligations.ReverseTableContents : Prop :=
  ∀ c : Byte,
    (0x41 ≤ c.toNat ∧ c.toNat ≤ 0x5A → rev c = ⟨false, true, BitVec.ofNat 6 (c.toNat - 0x41)⟩) ∧
    (0x61 ≤ c.toNat ∧ c.toNat ≤ 0x7A → rev c = ⟨false, true, BitVec.ofNat 6 (c.toNat - 0x61 + 26)⟩) ∧
    (0x30 ≤ c.toNat ∧ c.toNat ≤ 0x39 → rev c = ⟨false, true, BitVec.ofNat 6 (c.toNat - 0x30 + 52)⟩) ∧
    (c = 0x2B#8 → rev c = ⟨false, true, 62#6⟩) ∧ (c = 0x2F#8 → rev c = ⟨false, true, 63#6⟩) ∧
    (c = 0x3D#8 → rev c = ⟨true, false, 0#6⟩) ∧
    (c.toNat ≤ 0x2A ∨ (0x2C ≤ c.toNat ∧ c.toNat ≤ 0x2E) ∨ (0x3A ≤ c.toNat ∧ c.toNat ≤ 0x3C) ∨
      (0x3E ≤ c.toNat ∧ c.toNat ≤ 0x40) ∨ (0x5B ≤ c.toNat ∧ c.toNat ≤ 0x60) ∨ 0x7B ≤ c.toNat →
      rev c = ⟨false, false, 0#6⟩)

/-- The 256 character codes, in order. -/
def allCodes : List Byte := (List.range 256).map (BitVec.ofNat 8)

/-- R25, an inference the spec marks as its own (from R22 to R24): REV is the inverse of ALPHABET, and how many codes
are valid, padding and invalid. -/
def Obligations.ReverseTableInvertsAlphabet : Prop :=
  (∀ i : Index, rev (alphabet i) = ⟨false, true, i⟩) ∧
  (∀ c : Byte, (rev c).valid = true → alphabet (rev c).idx = c) ∧
  (∀ c : Byte, (rev c).pad = true ↔ c = 0x3D#8) ∧
  (∀ c : Byte, ¬ ((rev c).pad = true ∧ (rev c).valid = true)) ∧
  (allCodes.filter fun c => (rev c).valid).length = 64 ∧
  (allCodes.filter fun c => (rev c).pad).length = 1 ∧
  (allCodes.filter fun c => !(rev c).pad && !(rev c).valid).length = 191

/-- R29: the fields of STATUS, the reserved bits at 0; STAT, DINIT and DEND return it, and DSYM returns its bits [31:12]
as they stand after the command. -/
def Obligations.StatusWordFields : Prop :=
  (∀ s : State,
    (statusWord s).extractLsb' 31 1 = BitVec.ofBool s.err ∧ (statusWord s).extractLsb' 30 1 = BitVec.ofBool s.ipad ∧
    (statusWord s).extractLsb' 28 2 = s.padc ∧ (statusWord s).extractLsb' 24 4 = s.cnt ∧
    (statusWord s).extractLsb' 12 12 = s.acc ∧ (statusWord s).extractLsb' 0 12 = 0#12) ∧
  (∀ (s : State) (i : Instr), s.rstDone = true → i = .stat ∨ i = .dinit ∨ i = .dend →
    ∃ t code, exec i s = .next t ∧ t.responses = s.responses ++ [⟨code, statusWord s⟩]) ∧
  (∀ (s t : State) (sym : Byte), exec (.dsym sym) s = .next t →
    ∃ r, t.responses = s.responses ++ [r] ∧ r.data.extractLsb' 12 20 = (statusWord t).extractLsb' 12 20)

/-! ## The encoder -/

/-- R82: the group value with its zero fill, the four indices as slices of it, and the indices by the bits of each
byte. -/
def Obligations.GroupIndicesByBits : Prop :=
  ∀ (n : Nat) (b0 b1 b2 : Byte), n = 1 ∨ n = 2 ∨ n = 3 →
    let b1' : Byte := if 2 ≤ n then b1 else 0x00#8
    let b2' : Byte := if n = 3 then b2 else 0x00#8
    let v := groupValue n b0 b1 b2
    v = b0 ++ b1' ++ b2' ∧
    groupIndex v 0 = v.extractLsb' 18 6 ∧ groupIndex v 1 = v.extractLsb' 12 6 ∧
    groupIndex v 2 = v.extractLsb' 6 6 ∧ groupIndex v 3 = v.extractLsb' 0 6 ∧
    groupIndex v 0 = b0.extractLsb' 2 6 ∧ groupIndex v 1 = b0.extractLsb' 0 2 ++ b1'.extractLsb' 4 4 ∧
    groupIndex v 2 = b1'.extractLsb' 0 4 ++ b2'.extractLsb' 6 2 ∧ groupIndex v 3 = b2'.extractLsb' 0 6

/-- R84, whose last clause is an inference the spec marks as its own (from R82): the last `3 - N` symbols are PAD and
the first `4 - (3 - N)` are the ROM's; every replaced position has an index of zero fill only. -/
def Obligations.PaddingReplacesZeroFill : Prop :=
  ∀ (n k : Nat) (b0 b1 b2 : Byte), n = 1 ∨ n = 2 ∨ n = 3 → k < 4 →
    let v := groupValue n b0 b1 b2
    (k < 4 - (3 - n) → groupSymbol n v k = alphabet (groupIndex v k)) ∧
    (4 - (3 - n) ≤ k → groupSymbol n v k = pad ∧ groupIndex v k = 0#6)

/-- R85: ENC.3, its encoding, its result by the bits of its operands, its frame (nothing but the response), and the rule's
corner cases and example. -/
def Obligations.Enc3EncodesGroup : Prop :=
  (∀ w : Word, w &&& 0xF3000000#32 = 0x13000000#32 →
    decode w = .ok (.enc3 (w.extractLsb' 16 8) (w.extractLsb' 8 8) (w.extractLsb' 0 8))) ∧
  (∀ (s : State) (b0 b1 b2 : Byte), s.rstDone = true →
    exec (.enc3 b0 b1 b2) s = .next (respond s .ok
      (alphabet (b0.extractLsb' 2 6) ++ alphabet (b0.extractLsb' 0 2 ++ b1.extractLsb' 4 4) ++
        alphabet (b1.extractLsb' 0 4 ++ b2.extractLsb' 6 2) ++ alphabet (b2.extractLsb' 0 6)))) ∧
  (∀ s : State, s.rstDone = true →
    exec (.enc3 0x00#8 0x00#8 0x00#8) s = .next (respond s .ok 0x41414141#32) ∧
    exec (.enc3 0xFF#8 0xFF#8 0xFF#8) s = .next (respond s .ok 0x2F2F2F2F#32) ∧
    exec (.enc3 0x66#8 0x6F#8 0x6F#8) s = .next (respond s .ok 0x5A6D3976#32)) ∧
  (∀ i : Index, alphabet i ≠ pad) ∧ encode (.enc3 0x66#8 0x6F#8 0x6F#8) = 0x13666F6F#32

/-- R86: ENC.2, its encoding (the lane B2 is read by nothing), its result, its frame, and the rule's corner cases and
example. -/
def Obligations.Enc2EncodesGroup : Prop :=
  (∀ w : Word, w &&& 0xF3000000#32 = 0x12000000#32 →
    decode w = .ok (.enc2 (w.extractLsb' 16 8) (w.extractLsb' 8 8))) ∧
  (∀ (s : State) (b0 b1 : Byte), s.rstDone = true →
    exec (.enc2 b0 b1) s = .next (respond s .ok
      (alphabet (b0.extractLsb' 2 6) ++ alphabet (b0.extractLsb' 0 2 ++ b1.extractLsb' 4 4) ++
        alphabet (b1.extractLsb' 0 4 ++ 0b00#2) ++ 0x3D#8))) ∧
  (∀ s : State, s.rstDone = true →
    exec (.enc2 0x00#8 0x00#8) s = .next (respond s .ok 0x4141413D#32) ∧
    exec (.enc2 0xFF#8 0xFF#8) s = .next (respond s .ok 0x2F2F383D#32) ∧
    exec (.enc2 0x66#8 0x6F#8) s = .next (respond s .ok 0x5A6D383D#32)) ∧
  (∀ b1 : Byte, (b1.extractLsb' 0 4 ++ 0b00#2).toNat % 4 = 0) ∧ encode (.enc2 0x66#8 0x6F#8) = 0x12666F00#32

/-- R87: ENC.1, its encoding (the lanes B1 and B2 are read by nothing), its result, its frame, and the rule's corner cases
and example. -/
def Obligations.Enc1EncodesGroup : Prop :=
  (∀ w : Word, w &&& 0xF3000000#32 = 0x11000000#32 → decode w = .ok (.enc1 (w.extractLsb' 16 8))) ∧
  (∀ (s : State) (b0 : Byte), s.rstDone = true →
    exec (.enc1 b0) s = .next (respond s .ok
      (alphabet (b0.extractLsb' 2 6) ++ alphabet (b0.extractLsb' 0 2 ++ 0b0000#4) ++ 0x3D#8 ++ 0x3D#8))) ∧
  (∀ s : State, s.rstDone = true →
    exec (.enc1 0x00#8) s = .next (respond s .ok 0x41413D3D#32) ∧
    exec (.enc1 0xFF#8) s = .next (respond s .ok 0x2F773D3D#32) ∧
    exec (.enc1 0x66#8) s = .next (respond s .ok 0x5A673D3D#32)) ∧
  (∀ b0 : Byte, alphabet (b0.extractLsb' 0 2 ++ 0b0000#4) ∈ [0x41#8, 0x51#8, 0x67#8, 0x77#8]) ∧
  encode (.enc1 0x66#8) = 0x11660000#32

/-- R89: ALPH, its encoding (a longer index is taken modulo 64), its result, its frame, and the rule's corner cases and
example. -/
def Obligations.AlphReadsAlphabet : Prop :=
  (∀ w : Word, w &&& 0xF0000000#32 = 0x60000000#32 → decode w = .ok (.alph (w.extractLsb' 0 6))) ∧
  (∀ (s : State) (idx : Index), s.rstDone = true →
    exec (.alph idx) s = .next (respond s .ok ((alphabet idx).setWidth 32))) ∧
  alphabet 0#6 = 0x41#8 ∧ alphabet 63#6 = 0x2F#8 ∧ alphabet 25#6 = 0x5A#8 ∧ encode (.alph 25#6) = 0x60000019#32 ∧
  (∀ idx : Index, alphabet idx ≠ pad)

/-- The ENC command of a group of `n` bytes. -/
def encOf (n : Nat) (b0 b1 b2 : Byte) : Instr :=
  if n = 1 then .enc1 b0 else if n = 2 then .enc2 b0 b1 else .enc3 b0 b1 b2

/-- R90 (a) to (d), an inference the spec marks as its own (from R81 to R87): every ENC.N answers OK; its last `3 - N`
symbols and no others are PAD, the others are ALPHABET entries; and the response is the same whatever the decoder's
registers hold. -/
def Obligations.EncoderProperties : Prop :=
  ∀ (n : Nat) (b0 b1 b2 : Byte), n = 1 ∨ n = 2 ∨ n = 3 →
    ∃ d : Word, (∀ s : State, s.rstDone = true → exec (encOf n b0 b1 b2) s = .next (respond s .ok d)) ∧
      ∀ k, k < 4 → (4 - (3 - n) ≤ k → (symbolsOf d)[k]? = some pad) ∧
        (k < 4 - (3 - n) → ∃ idx : Index, (symbolsOf d)[k]? = some (alphabet idx) ∧ alphabet idx ≠ pad)

/-- R90 (e), an inference the spec marks as its own: presenting the four symbols of an ENC.N response to a clean
decoder yields exactly the N bytes of the group. -/
def Obligations.GroupDecodesToItsBytes : Prop :=
  ∀ (n : Nat) (b0 b1 b2 : Byte) (s t : State), n = 1 ∨ n = 2 ∨ n = 3 → Ready s → Clean s →
    exec (encOf n b0 b1 b2) s = .next t →
    ∃ r u, t.responses = s.responses ++ [r] ∧ presentText (symbolsOf r.data) t = some ([b0, b1, b2].take n, u)

/-! ## The decoder -/

/-- R101: DINIT, its encoding; it answers OK with the status it found, whatever ERR holds, and clears the five decoder
registers and nothing else; `INV` holds after it; right after reset it answers 0; and the rule's example. -/
def Obligations.DinitClears : Prop :=
  (∀ w : Word, w &&& 0xF0000000#32 = 0x20000000#32 → decode w = .ok .dinit) ∧
  (∀ s : State, s.rstDone = true →
    exec .dinit s = .next (respond { s with acc := 0x000#12, cnt := 0#4, err := false, padc := 0#2, ipad := false }
      .ok (statusWord s))) ∧
  (∀ s t : State, exec .dinit s = .next t → DecoderInv t) ∧ statusWord State.reset = 0x00000000#32 ∧
  (∀ s t : State, s.rstDone = true → Clean s → exec (.dsym 0x5A#8) s = .next t →
    ∃ u, exec .dinit t = .next u ∧ Clean u ∧ u.responses = t.responses ++ [⟨.ok, 0x06019000#32⟩])

/-- R108: DEND, its encoding; it answers INVALID_CHARACTER when ERR = 1 and OK otherwise, with the status it found, for
every residual count and value, and clears the five decoder registers and nothing else; `INV` holds after it; with no
prior DSYM it answers OK, 0; and the rule's two examples. -/
def Obligations.DendReportsAndClears : Prop :=
  (∀ w : Word, w &&& 0xF0000000#32 = 0x40000000#32 → decode w = .ok .dend) ∧
  (∀ s : State, s.rstDone = true →
    exec .dend s = .next (respond { s with acc := 0x000#12, cnt := 0#4, err := false, padc := 0#2, ipad := false }
      (if s.err = true then .invalidCharacter else .ok) (statusWord s))) ∧
  (∀ s t : State, exec .dend s = .next t → DecoderInv t) ∧ (∀ s : State, Clean s → statusWord s = 0x00000000#32) ∧
  (∀ (s : State), Ready s → Clean s →
    (∃ t u, presentText [0x5A#8, 0x67#8, 0x3D#8, 0x3D#8] s = some ([0x66#8], t) ∧ exec .dend t = .next u ∧
      u.responses = t.responses ++ [⟨.ok, 0x24000000#32⟩]) ∧
    (∃ t u, presentText [0x5A#8, 0x68#8, 0x3D#8, 0x3D#8] s = some ([0x66#8], t) ∧ exec .dend t = .next u ∧
      u.responses = t.responses ++ [⟨.ok, 0x24001000#32⟩]))

/-- R109: STAT, its encoding; it answers OK with the status, even when ERR = 1, and changes nothing else, so a second one
answers the same; after reset it answers 0; and the rule's example. -/
def Obligations.StatReadsStatus : Prop :=
  (∀ w : Word, w &&& 0xF0000000#32 = 0x50000000#32 → decode w = .ok .stat) ∧
  (∀ s : State, s.rstDone = true → exec .stat s = .next (respond s .ok (statusWord s)) ∧
    exec .stat (respond s .ok (statusWord s)) = .next (respond (respond s .ok (statusWord s)) .ok (statusWord s))) ∧
  statusWord State.reset = 0x00000000#32 ∧
  (∀ s t : State, s.rstDone = true → Clean s → exec (.dsym 0x21#8) s = .next t →
    exec .stat t = .next (respond t .ok 0x80000000#32))

/-- R110: RLUT, its encoding; it answers OK with P in [9], V in [8], IDX in [5:0] and 0 elsewhere, whatever ERR holds, and
changes nothing else; and the rule's corner cases and example. -/
def Obligations.RlutReadsReverseTable : Prop :=
  (∀ w : Word, w &&& 0xF0000000#32 = 0x70000000#32 → decode w = .ok (.rlut (w.extractLsb' 0 8))) ∧
  (∀ (s : State) (sym : Byte), s.rstDone = true →
    ∃ d : Word, exec (.rlut sym) s = .next (respond s .ok d) ∧ d.extractLsb' 10 22 = 0#22 ∧
      d.getLsbD 9 = (rev sym).pad ∧ d.getLsbD 8 = (rev sym).valid ∧ d.extractLsb' 6 2 = 0#2 ∧
      d.extractLsb' 0 6 = (rev sym).idx) ∧
  (∀ s : State, s.rstDone = true →
    exec (.rlut 0x3D#8) s = .next (respond s .ok 0x00000200#32) ∧
    exec (.rlut 0x41#8) s = .next (respond s .ok 0x00000100#32) ∧
    exec (.rlut 0x2F#8) s = .next (respond s .ok 0x0000013F#32) ∧
    exec (.rlut 0x80#8) s = .next (respond s .ok 0x00000000#32) ∧
    exec (.rlut 0x5A#8) s = .next (respond s .ok 0x00000119#32))

/-- R104: DSYM with an invalid symbol sets ERR, and while ERR = 1 every DSYM changes nothing; each answers
INVALID_CHARACTER with STATUS[31:12] above zeros, so bit 31 is 1; 191 codes are invalid; ERR persists through every
word but DEND's and DINIT's, and those two and reset clear it; and the rule's example. -/
def Obligations.DsymInvalidIsSticky : Prop :=
  (∀ (s : State) (sym : Byte), s.rstDone = true → s.err = false → rev sym = ⟨false, false, 0#6⟩ →
    exec (.dsym sym) s = .next (respond { s with err := true } .invalidCharacter
      ((statusWord { s with err := true }).extractLsb' 12 20 ++ 0x000#12)) ∧
    ((statusWord { s with err := true }).extractLsb' 12 20 ++ 0x000#12).getLsbD 31 = true) ∧
  (∀ (s : State) (sym : Byte), s.rstDone = true → s.err = true →
    exec (.dsym sym) s = .next (respond s .invalidCharacter ((statusWord s).extractLsb' 12 20 ++ 0x000#12))) ∧
  (allCodes.filter fun c => rev c = ⟨false, false, 0#6⟩).length = 191 ∧
  (∀ (s t : State) (w : Word), performWord w s = .next t → s.err = true → decode w ≠ .ok .dinit → decode w ≠ .ok .dend →
    t.err = true) ∧
  (∀ s : State, s.rstDone = true → (∃ t, exec .dinit s = .next t ∧ t.err = false) ∧
    ∃ t, exec .dend s = .next t ∧ t.err = false) ∧
  (∀ s : State, (assertReset s).err = false) ∧
  (∀ s : State, s.rstDone = true → Clean s →
    exec (.dsym 0x21#8) s = .next (respond { s with err := true } .invalidCharacter 0x80000000#32))

/-- R105: DSYM with `'='` while ERR = 0, wherever it stands in the text: PADC counts it, saturating at 3, and nothing else
changes; the answer is OK with PS = 1, no byte; and the rule's example after "Zg". -/
def Obligations.DsymPaddingIsSkipped : Prop :=
  (∀ s : State, s.rstDone = true → s.err = false →
    exec (.dsym 0x3D#8) s = .next (respond { s with padc := BitVec.ofNat 2 (min (s.padc.toNat + 1) 3) } .ok
      ((statusWord { s with padc := BitVec.ofNat 2 (min (s.padc.toNat + 1) 3) }).extractLsb' 12 20 ++ 0x200#12))) ∧
  (∀ s : State, Ready s → Clean s →
    ∃ t, presentText [0x5A#8, 0x67#8] s = some ([0x66#8], t) ∧
      exec (.dsym 0x3D#8) t = .next (respond { t with padc := 1#2 } .ok 0x14000200#32))

/-- R106: DSYM with an alphabet symbol under `INV`: the shift-in, the byte emitted when 8 or more bits are buffered, the
registers left, IPAD, the response, and nothing else; `INV` holds again; and the rule's example after "Z". -/
def Obligations.DsymShiftsInSymbol : Prop :=
  (∀ (s : State) (sym : Byte) (idx : Index), s.rstDone = true → DecoderInv s → s.err = false → rev sym = ⟨false, true, idx⟩ →
    let accT := s.acc.toNat * 64 + idx.toNat
    let cntT := s.cnt.toNat + 6
    accT < 2 ^ 12 ∧
    ∃ t, DecoderInv t ∧ t.err = false ∧ t.padc = s.padc ∧ (t.ipad = true ↔ s.ipad = true ∨ s.padc ≠ 0#2) ∧
      t.rstDone = s.rstDone ∧ t.inFlight = s.inFlight ∧ t.script = s.script ∧ t.freeCount = s.freeCount ∧
      (8 ≤ cntT → t.cnt.toNat = cntT - 8 ∧ t.acc.toNat = accT % 2 ^ (cntT - 8) ∧
        exec (.dsym sym) s = .next t ∧
        t.responses = s.responses ++ [⟨.ok, (statusWord t).extractLsb' 12 20 ++ 0b0001#4 ++
          BitVec.ofNat 8 ((accT >>> (cntT - 8)) &&& 0xFF)⟩]) ∧
      (cntT < 8 → t.cnt.toNat = cntT ∧ t.acc.toNat = accT ∧
        exec (.dsym sym) s = .next t ∧
        t.responses = s.responses ++ [⟨.ok, (statusWord t).extractLsb' 12 20 ++ 0x000#12⟩])) ∧
  (∀ s : State, Ready s → Clean s →
    ∃ t, presentText [0x5A#8] s = some ([], t) ∧ t.cnt = 6#4 ∧ t.acc = 25#12 ∧
      exec (.dsym 0x6D#8) t = .next (respond { t with cnt := 4#4, acc := 0x006#12 } .ok 0x04006166#32))

/-- R107, an inference the spec marks as its own (from R106 and R28): under `INV` at most 12 bits are buffered inside
a DSYM and at most 6 between commands, so that one extraction leaves fewer than 8; a byte is emitted exactly when the
count is not 0, that is for the 2nd, 3rd and 4th symbol of each run of four, whose counts run 0, 6, 4, 2, 0. -/
def Obligations.DsymBounds : Prop :=
  ∀ (s t : State) (sym : Byte), DecoderInv s → s.err = false → (rev sym).valid = true → exec (.dsym sym) s = .next t →
    s.cnt.toNat + 6 ≤ 12 ∧ s.cnt.toNat + 6 - 8 < 8 ∧ t.cnt.toNat ≤ 6 ∧
    (s.cnt = 0#4 → t.cnt = 6#4) ∧ (s.cnt = 6#4 → t.cnt = 4#4) ∧ (s.cnt = 4#4 → t.cnt = 2#4) ∧ (s.cnt = 2#4 → t.cnt = 0#4) ∧
    ∃ r, t.responses = s.responses ++ [r] ∧ (r.data.getLsbD 8 = true ↔ s.cnt ≠ 0#4)

/-- R103: the fields of every DSYM response: the status after the command, zeros, PS exactly for a counted padding symbol,
BV exactly for an alphabet symbol that emits a byte, and BYTE 0x00 when BV = 0. -/
def Obligations.DsymResponseFields : Prop :=
  ∀ (s t : State) (sym : Byte), exec (.dsym sym) s = .next t →
    ∃ r, t.responses = s.responses ++ [r] ∧ r.data.extractLsb' 12 20 = (statusWord t).extractLsb' 12 20 ∧
      r.data.extractLsb' 10 2 = 0#2 ∧ (r.data.getLsbD 9 = true ↔ s.err = false ∧ sym = 0x3D#8) ∧
      (r.data.getLsbD 8 = true ↔ s.err = false ∧ (rev sym).valid = true ∧ 8 ≤ s.cnt.toNat + 6) ∧
      (r.data.getLsbD 8 = false → r.data.extractLsb' 0 8 = 0x00#8)

/-- R155, R102: in every state after reset that meets `INV`, DSYM completes on every one of the 256 symbols, `INV` holds
after it, it changes no field but the decoder's five and the responses, and one that fails changes ERR only. -/
def Obligations.DsymCompletesOnEverySymbol : Prop :=
  ∀ (s : State) (sym : Byte), s.rstDone = true → DecoderInv s →
    ∃ t r, exec (.dsym sym) s = .next t ∧ DecoderInv t ∧
      { t with acc := s.acc, cnt := s.cnt, err := s.err, padc := s.padc, ipad := s.ipad, responses := s.responses } = s ∧
      t.responses = s.responses ++ [r] ∧
      (r.code = .invalidCharacter → t = { s with err := true, responses := t.responses })

/-- R28, and the model's choice of log entry 9: in a state after reset that violates `INV`, DSYM with an alphabet
symbol is refused; the sticky error, a padding symbol and an invalid symbol, which do not read the accumulator, still
answer. -/
def Obligations.DsymOutsideInvIsRefused : Prop :=
  ∀ (s : State) (sym : Byte), s.rstDone = true → ¬ DecoderInv s →
    (s.err = false ∧ (rev sym).valid = true → exec (.dsym sym) s = .refused .outsideInv) ∧
    (s.err = true ∨ (rev sym).valid = false → ∃ t, exec (.dsym sym) s = .next t)

/-- An inference R106 marks as its own: against the source's unbounded accumulator `b`, which keeps consumed bits.
From any state whose ACC is `b mod 2^CNT`, presenting alphabet symbols emits exactly the source's bytes. -/
def Obligations.AccumulatorRefinesSource : Prop :=
  ∀ (idxs : List Index) (s : State) (b : Nat), Ready s → DecoderInv s → s.err = false → s.acc.toNat = b % 2 ^ s.cnt.toNat →
    ∃ t, presentText (idxs.map alphabet) s = some (sourceDecode b s.cnt.toNat idxs, t) ∧ Ready t ∧ DecoderInv t ∧ t.err = false

/-! ## The whole machine -/

/-- R28, an inference the spec marks as its own, and R174: every step keeps the safe states: `INV` in a block that has
been reset, and no command in flight in one that has not. -/
def Obligations.StepKeepsSafe : Prop :=
  ∀ s t : State, Safe s → step s = .next t → Safe t

/-- The state after reset and the state at power-up are safe, whatever the registers hold at power-up. -/
def Obligations.ResetAndPowerUpAreSafe : Prop := Safe State.reset ∧ Safe powerUp

/-- R174: from every safe state a step answers a next state, except where a command is issued, at once or with its
response held off, before the first reset, which is refused: no other refusal and no fault is ever met. -/
def Obligations.SafeStepAnswers : Prop :=
  ∀ s : State, Safe s →
    (∃ t, step s = .next t) ∨
    (s.rstDone = false ∧ s.inFlight = none ∧
      (∃ w rest, s.script = .command w :: rest ∨ s.script = .offer w :: rest) ∧ step s = .refused .beforeReset)

/-- R142: once the host has no command left to issue and none is in flight, the run has ended and stays so. Every step
answers a next state, and no response is delivered any more. That a run in which reset discarded a command in flight,
of which R142 says nothing, has ended in the same way is the model's choice (log entry 23). -/
def Obligations.EndedRunStaysEnded : Prop :=
  ∀ s : State, RunEnded s → ∃ t, step s = .next t ∧ RunEnded t ∧ t.responses = s.responses

/-- The response code of a word by the precedence of R154. -/
def codeByPrecedence (w : Word) (s : State) : RspCode :=
  if isIllegalWord w then .illegalCommand
  else if w.extractLsb' 28 4 = 0x3#4 ∧ s.err = true then .invalidCharacter
  else if w.extractLsb' 28 4 = 0x3#4 ∧ rev (w.extractLsb' 0 8) = ⟨false, false, 0#6⟩ then .invalidCharacter
  else if w.extractLsb' 28 4 = 0x4#4 ∧ s.err = true then .invalidCharacter
  else .ok

/-- R154: every word performed after reset, under `INV`, gets exactly one response, with the code of that precedence. -/
def Obligations.ResponseCodePrecedence : Prop :=
  ∀ (s : State) (w : Word), s.rstDone = true → DecoderInv s →
    ∃ t d, performWord w s = .next t ∧ t.responses = s.responses ++ [⟨codeByPrecedence w s, d⟩]

/-- R67: the three codes' bits; the reserved code 0b11 is none of them. -/
def Obligations.ReservedCodeNeverProduced : Prop :=
  rspBits .ok = 0b00#2 ∧ rspBits .invalidCharacter = 0b01#2 ∧ rspBits .illegalCommand = 0b10#2 ∧
    ∀ c : RspCode, rspBits c ≠ 0b11#2

/-- R172, R179, in the model's list of responses (log entry 2): a step that takes a command with none in flight, or
takes the held response, delivers exactly one response, uses the event up and leaves nothing in flight, so that
nothing is answered twice; every other step delivers none; and no response once delivered changes. -/
def Obligations.ResponsesOnlyGrow : Prop :=
  ∀ s t : State, step s = .next t →
    (∃ r, t.responses = s.responses ++ [r] ∧ t.inFlight = none ∧
      ((∃ w, s.script = .command w :: t.script ∧ s.inFlight = none) ∨
       (∃ w, s.script = .accept :: t.script ∧ s.inFlight = some w))) ∨
    (t.responses = s.responses ∧
      (∀ w rest, s.script = .command w :: rest → s.inFlight ≠ none) ∧
      (∀ rest, s.script = .accept :: rest → s.inFlight = none))

/-- R27, R31, and R26 for who writes ACC and CNT: no command but DSYM, DINIT and DEND writes a decoder register, and
no command writes RST_DONE, the command in flight, the script or the free-value counter. Each appends exactly one
response (R67). -/
def Obligations.OnlyDecoderCommandsWriteRegisters : Prop :=
  ∀ (s t : State) (i : Instr), exec i s = .next t →
    t.rstDone = s.rstDone ∧ t.inFlight = s.inFlight ∧ t.script = s.script ∧ t.freeCount = s.freeCount ∧
    (∃ r, t.responses = s.responses ++ [r]) ∧
    ((∀ sym, i ≠ .dsym sym) → i ≠ .dinit → i ≠ .dend →
      t.acc = s.acc ∧ t.cnt = s.cnt ∧ t.err = s.err ∧ t.padc = s.padc ∧ t.ipad = s.ipad)

/-- R31: ERR, IPAD and PADC are set by DSYM only, each by its own kind of symbol, and cleared by DINIT and DEND only. -/
def Obligations.FlagsSetByDsymClearedByInitOrEnd : Prop :=
  ∀ (s t : State) (i : Instr), exec i s = .next t →
    (s.err = false → t.err = true → ∃ sym, i = .dsym sym ∧ rev sym = ⟨false, false, 0#6⟩) ∧
    (s.ipad = false → t.ipad = true → s.padc ≠ 0#2 ∧ ∃ sym, i = .dsym sym ∧ (rev sym).valid = true) ∧
    (s.padc.toNat < t.padc.toNat → i = .dsym 0x3D#8) ∧
    ((s.err = true ∧ t.err = false) ∨ (s.ipad = true ∧ t.ipad = false) ∨ t.padc.toNat < s.padc.toNat →
      i = .dinit ∨ i = .dend)

/-- The commands that read or write no decoder register (R137): ENC.1, ENC.2, ENC.3, ALPH and RLUT. -/
def isRegisterFree : Instr → Bool
  | .enc1 _ | .enc2 _ _ | .enc3 _ _ _ | .alph _ | .rlut _ => true
  | .dinit | .dsym _ | .dend | .stat => false

/-- R27 for ENC, R89 for ALPH and R110 for RLUT: two states that differ in the decoder registers alone get the same
response to ENC.1, ENC.2, ENC.3, ALPH and RLUT: none of them can learn what the decoder holds. -/
def Obligations.EncoderLearnsNothingOfDecoder : Prop :=
  ∀ (i : Instr) (s : State) (acc : BitVec 12) (cnt : BitVec 4) (err ipad : Bool) (padc : BitVec 2),
    isRegisterFree i = true → s.rstDone = true →
    ∃ r : Response, exec i s = .next (respond s r.code r.data) ∧
      exec i { s with acc := acc, cnt := cnt, err := err, padc := padc, ipad := ipad } =
        .next (respond { s with acc := acc, cnt := cnt, err := err, padc := padc, ipad := ipad } r.code r.data)

/-- R137, an inference the spec marks as its own (from R27): an ENC, ALPH, RLUT or STAT command or an illegal word
between two commands changes neither the registers nor the response of the one after it. -/
def Obligations.InterleavingChangesNothing : Prop :=
  ∀ (w : Word) (j : Instr) (s t u : State),
    ((∃ i, decode w = .ok i ∧ (isRegisterFree i = true ∨ i = .stat)) ∨ ∃ e, decode w = .error e) →
    performWord w s = .next t → exec j s = .next u →
    ∃ v r, exec j t = .next v ∧ v.responses = t.responses ++ [r] ∧ u.responses = s.responses ++ [r] ∧
      { v with responses := u.responses } = u

/-- R49: ENC, ALPH, RLUT and STAT are idempotent, and DINIT and DEND are idempotent in their effect on state. -/
def Obligations.IdempotentCommands : Prop :=
  ∀ (i : Instr) (s t : State), (∀ sym, i ≠ .dsym sym) → exec i s = .next t →
    ∃ u r r', exec i t = .next u ∧ t.responses = s.responses ++ [r] ∧ u.responses = t.responses ++ [r'] ∧
      { u with responses := t.responses } = t ∧
      (isRegisterFree i = true ∨ i = .stat → r' = r ∧ { t with responses := s.responses } = s)

/-! ## Host transactions -/

/-- R132, an inference the spec marks as its own (from R131 and R90): the text `encode` returns for `L` bytes has `4 *
ceil(L / 3)` characters and ends with exactly `(3 - L % 3) % 3` padding symbols; every other character is an alphabet
symbol; and the block's registers are untouched. -/
def Obligations.EncodeLengthAndPadding : Prop :=
  ∀ (data : List Byte) (s : State), Ready s →
    ∃ text symbols t, hostEncode data s = some (text, t) ∧ text.length = 4 * ((data.length + 2) / 3) ∧
      text = symbols ++ List.replicate ((3 - data.length % 3) % 3) pad ∧
      (∀ c ∈ symbols, (rev c).valid = true ∧ c ≠ pad) ∧ { t with responses := s.responses } = s

/-- R133, an inference the spec marks as its own (from R131): the empty byte sequence is encoded by no command, as the
empty text. -/
def Obligations.EmptyEncodesToEmpty : Prop :=
  encodeProgram [] = [] ∧ ∀ s : State, hostEncode [] s = some ([], s)

/-- R138, an inference the spec marks as its own: `decode(encode(x)) = x` for every byte sequence of any length, from
any block that is ready, on one block (which is ready again after the encode) or on two, and the decoder is left
clean. -/
def Obligations.RoundTrip : Prop :=
  ∀ (data : List Byte) (s : State), Ready s →
    ∃ text t, hostEncode data s = some (text, t) ∧ Ready t ∧ ∀ u : State, Ready u →
      ∃ v, hostDecode text u = some (.bytes data, v) ∧ Clean v

/-- R139, an inference the spec marks as its own (from R134 and R104): `decode` returns InvalidCharacter for every
text with a character outside the alphabet and the padding symbol. -/
def Obligations.GarbageFails : Prop :=
  ∀ (text : List Byte) (s : State), Ready s → (∃ c ∈ text, (rev c).valid = false ∧ c ≠ 0x3D#8) →
    ∃ t, hostDecode text s = some (.invalidCharacter, t) ∧ Clean t

/-- R136, an inference the spec marks as its own, and R140: every text of alphabet and padding symbols, whatever its
length, padding and residual bits, decodes to the bytes the source's accumulator makes of its alphabet symbols, every
padding symbol skipped wherever it stands. -/
def Obligations.TolerantDecode : Prop :=
  ∀ (text : List Byte) (s : State), Ready s → (∀ c ∈ text, (rev c).valid = true ∨ c = 0x3D#8) →
    ∃ t, hostDecode text s = some (.bytes (sourceDecode 0 0 (alphabetIndices text)), t) ∧ Clean t

/-- R134: whether the host stops at the first error or presents the remaining characters, the result is the same, and so
are the registers left. -/
def Obligations.EarlyStopSameResult : Prop :=
  ∀ (text : List Byte) (s : State), Ready s →
    ∃ result t u, hostDecode text s = some (result, t) ∧ hostDecodeWhole text s = some (result, u) ∧
      { u with responses := t.responses } = t

/-- R111, an inference the spec marks as its own (from R106 and R108): with `k` alphabet symbols accepted since the
last clear, `floor(6k / 8)` bytes are out and CNT = `6k mod 8`, whatever padding stands between them. -/
def Obligations.ResidualCount : Prop :=
  ∀ (text : List Byte) (s : State), Ready s → Clean s → (∀ c ∈ text, (rev c).valid = true ∨ c = 0x3D#8) →
    ∃ out t, presentText text s = some (out, t) ∧ t.err = false ∧
      out.length = 6 * (alphabetIndices text).length / 8 ∧ t.cnt.toNat = 6 * (alphabetIndices text).length % 8

/-- R178: a transaction takes `ceil(L / 3)` ENC commands, or `len(t) + 2` decoder commands, each with one response. -/
def Obligations.TransactionCommandCounts : Prop :=
  ∀ s : State, Ready s →
    (∀ data : List Byte, (encodeProgram data).length = (data.length + 2) / 3 ∧
      ∃ text t, hostEncode data s = some (text, t) ∧ t.responses.length = s.responses.length + (data.length + 2) / 3) ∧
    (∀ text : List Byte, ∃ result t, hostDecodeWhole text s = some (result, t) ∧
      t.responses.length = s.responses.length + (text.length + 2))

/-- R134, and the model's free code of log entry 13: the code presented for a character is its ASCII code, or for any
other character some code in 0x80..0xFF, and a text with one decodes to InvalidCharacter whichever code that is. -/
def Obligations.NonAsciiFails : Prop :=
  (∀ ch : Char, ch.toNat < 0x80 → (charCode ch).toNat = ch.toNat) ∧
  (∀ ch : Char, 0x80 ≤ ch.toNat → 0x80 ≤ (charCode ch).toNat) ∧
  (∀ (text : List Char) (s : State), Ready s → (∃ ch ∈ text, 0x80 ≤ ch.toNat) →
    ∃ t, hostDecodeText text s = some (.invalidCharacter, t))

/-! ## The assembler -/

/-- R69: each form's word, 0 in every ignored bit, for operands in range; and an operand out of range is an error. -/
def Obligations.AssemblerForms : Prop :=
  (∀ b0 < 256, assemble (.enc1 b0) = some [BitVec.ofNat 32 (0x11000000 ||| b0 <<< 16)]) ∧
  (∀ b0 < 256, ∀ b1 < 256, assemble (.enc2 b0 b1) = some [BitVec.ofNat 32 (0x12000000 ||| b0 <<< 16 ||| b1 <<< 8)]) ∧
  (∀ b0 < 256, ∀ b1 < 256, ∀ b2 < 256,
    assemble (.enc3 b0 b1 b2) = some [BitVec.ofNat 32 (0x13000000 ||| b0 <<< 16 ||| b1 <<< 8 ||| b2)]) ∧
  assemble .dinit = some [0x20000000#32] ∧ assemble .dend = some [0x40000000#32] ∧ assemble .stat = some [0x50000000#32] ∧
  (∀ s < 256, assemble (.dsym s) = some [BitVec.ofNat 32 (0x30000000 ||| s)]) ∧
  (∀ i < 64, assemble (.alph i) = some [BitVec.ofNat 32 (0x60000000 ||| i)]) ∧
  (∀ s < 256, assemble (.rlut s) = some [BitVec.ofNat 32 (0x70000000 ||| s)]) ∧
  (∀ w < 2 ^ 32, assemble (.word w) = some [BitVec.ofNat 32 w]) ∧
  (∀ n, 256 ≤ n → assemble (.dsym n) = none ∧ assemble (.rlut n) = none ∧ assemble (.enc1 n) = none) ∧
  (∀ n, 64 ≤ n → assemble (.alph n) = none) ∧ (∀ n, 2 ^ 32 ≤ n → assemble (.word n) = none) ∧
  (∀ b0 b1 b2, 256 ≤ b0 ∨ 256 ≤ b1 → assemble (.enc2 b0 b1) = none ∧ assemble (.enc3 b0 b1 b2) = none) ∧
  (∀ b0 b1 b2, 256 ≤ b2 → assemble (.enc3 b0 b1 b2) = none)

/-- R70, with the codes of log entries 13 and 19 for a character that is not ASCII: each pseudo-instruction expands to
the commands the rule gives; `DECODE` of a text is DINIT, its DSTR, DEND. -/
def Obligations.PseudoInstructions : Prop :=
  (∀ b0 b1 b2 : Nat, assemble (.enc [b0]) = assemble (.enc1 b0) ∧ assemble (.enc [b0, b1]) = assemble (.enc2 b0 b1) ∧
    assemble (.enc [b0, b1, b2]) = assemble (.enc3 b0 b1 b2)) ∧
  assemble (.encs []) = some [] ∧
  (∀ b0 < 256, assemble (.encs [b0]) = assemble (.enc1 b0)) ∧
  (∀ b0 < 256, ∀ b1 < 256, assemble (.encs [b0, b1]) = assemble (.enc2 b0 b1)) ∧
  (∀ b0 < 256, ∀ b1 < 256, ∀ b2 < 256, ∀ rest ws, assemble (.encs rest) = some ws →
    assemble (.encs (b0 :: b1 :: b2 :: rest)) =
      some (encode (.enc3 (BitVec.ofNat 8 b0) (BitVec.ofNat 8 b1) (BitVec.ofNat 8 b2)) :: ws)) ∧
  (∀ text : List Char, assemble (.dstr text) = some (text.map fun ch => encode (.dsym (charCode ch))) ∧
    assemble (.decode text) =
      some ([0x20000000#32] ++ (text.map fun ch => encode (.dsym (charCode ch))) ++ [0x40000000#32]))
end

