-- ==== Sys2Proof/Laws/State.lean ====
section
/-! SUPPORT. One lemma per field of State per named update: each field after the update, by rfl. -/

namespace Sys2Proof.Machine

variable (s : State)

@[simp] theorem respond_acc (code : RspCode) (data : Word) : (respond s code data).acc = s.acc := rfl
@[simp] theorem respond_cnt (code : RspCode) (data : Word) : (respond s code data).cnt = s.cnt := rfl
@[simp] theorem respond_err (code : RspCode) (data : Word) : (respond s code data).err = s.err := rfl
@[simp] theorem respond_padc (code : RspCode) (data : Word) : (respond s code data).padc = s.padc := rfl
@[simp] theorem respond_ipad (code : RspCode) (data : Word) : (respond s code data).ipad = s.ipad := rfl
@[simp] theorem respond_rstDone (code : RspCode) (data : Word) : (respond s code data).rstDone = s.rstDone := rfl
@[simp] theorem respond_inFlight (code : RspCode) (data : Word) : (respond s code data).inFlight = s.inFlight := rfl
@[simp] theorem respond_script (code : RspCode) (data : Word) : (respond s code data).script = s.script := rfl
@[simp] theorem respond_responses (code : RspCode) (data : Word) : (respond s code data).responses = s.responses ++ [⟨code, data⟩] := rfl
@[simp] theorem respond_freeCount (code : RspCode) (data : Word) : (respond s code data).freeCount = s.freeCount := rfl

@[simp] theorem clearDecoder_acc : (clearDecoder s).acc = 0x000#12 := rfl
@[simp] theorem clearDecoder_cnt : (clearDecoder s).cnt = 0#4 := rfl
@[simp] theorem clearDecoder_err : (clearDecoder s).err = false := rfl
@[simp] theorem clearDecoder_padc : (clearDecoder s).padc = 0#2 := rfl
@[simp] theorem clearDecoder_ipad : (clearDecoder s).ipad = false := rfl
@[simp] theorem clearDecoder_rstDone : (clearDecoder s).rstDone = s.rstDone := rfl
@[simp] theorem clearDecoder_inFlight : (clearDecoder s).inFlight = s.inFlight := rfl
@[simp] theorem clearDecoder_script : (clearDecoder s).script = s.script := rfl
@[simp] theorem clearDecoder_responses : (clearDecoder s).responses = s.responses := rfl
@[simp] theorem clearDecoder_freeCount : (clearDecoder s).freeCount = s.freeCount := rfl

@[simp] theorem assertReset_acc : (assertReset s).acc = 0x000#12 := rfl
@[simp] theorem assertReset_cnt : (assertReset s).cnt = 0#4 := rfl
@[simp] theorem assertReset_err : (assertReset s).err = false := rfl
@[simp] theorem assertReset_padc : (assertReset s).padc = 0#2 := rfl
@[simp] theorem assertReset_ipad : (assertReset s).ipad = false := rfl
@[simp] theorem assertReset_rstDone : (assertReset s).rstDone = true := rfl
@[simp] theorem assertReset_inFlight : (assertReset s).inFlight = none := rfl
@[simp] theorem assertReset_script : (assertReset s).script = s.script := rfl
@[simp] theorem assertReset_responses : (assertReset s).responses = s.responses := rfl
@[simp] theorem assertReset_freeCount : (assertReset s).freeCount = s.freeCount := rfl

@[simp] theorem losePower_acc : (losePower s).acc = Config.powerUpAcc s.freeCount := rfl
@[simp] theorem losePower_cnt : (losePower s).cnt = Config.powerUpCnt s.freeCount := rfl
@[simp] theorem losePower_err : (losePower s).err = Config.powerUpErr s.freeCount := rfl
@[simp] theorem losePower_padc : (losePower s).padc = Config.powerUpPadc s.freeCount := rfl
@[simp] theorem losePower_ipad : (losePower s).ipad = Config.powerUpIpad s.freeCount := rfl
@[simp] theorem losePower_rstDone : (losePower s).rstDone = false := rfl
@[simp] theorem losePower_inFlight : (losePower s).inFlight = none := rfl
@[simp] theorem losePower_script : (losePower s).script = s.script := rfl
@[simp] theorem losePower_responses : (losePower s).responses = s.responses := rfl
@[simp] theorem losePower_freeCount : (losePower s).freeCount = s.freeCount + 1 := rfl

@[simp] theorem shiftIn_acc (idx : Index) : (shiftIn s idx).acc = accNext s idx := rfl
@[simp] theorem shiftIn_cnt (idx : Index) : (shiftIn s idx).cnt = cntNext s := rfl
@[simp] theorem shiftIn_err (idx : Index) : (shiftIn s idx).err = s.err := rfl
@[simp] theorem shiftIn_padc (idx : Index) : (shiftIn s idx).padc = s.padc := rfl
@[simp] theorem shiftIn_ipad (idx : Index) : (shiftIn s idx).ipad = ipadNext s := rfl
@[simp] theorem shiftIn_rstDone (idx : Index) : (shiftIn s idx).rstDone = s.rstDone := rfl
@[simp] theorem shiftIn_inFlight (idx : Index) : (shiftIn s idx).inFlight = s.inFlight := rfl
@[simp] theorem shiftIn_script (idx : Index) : (shiftIn s idx).script = s.script := rfl
@[simp] theorem shiftIn_responses (idx : Index) : (shiftIn s idx).responses = s.responses := rfl
@[simp] theorem shiftIn_freeCount (idx : Index) : (shiftIn s idx).freeCount = s.freeCount := rfl

@[simp] theorem placeCommand_acc (w : Word) : (placeCommand w s).acc = s.acc := rfl
@[simp] theorem placeCommand_cnt (w : Word) : (placeCommand w s).cnt = s.cnt := rfl
@[simp] theorem placeCommand_err (w : Word) : (placeCommand w s).err = s.err := rfl
@[simp] theorem placeCommand_padc (w : Word) : (placeCommand w s).padc = s.padc := rfl
@[simp] theorem placeCommand_ipad (w : Word) : (placeCommand w s).ipad = s.ipad := rfl
@[simp] theorem placeCommand_rstDone (w : Word) : (placeCommand w s).rstDone = s.rstDone := rfl
@[simp] theorem placeCommand_inFlight (w : Word) : (placeCommand w s).inFlight = none := rfl
@[simp] theorem placeCommand_script (w : Word) : (placeCommand w s).script = .command w :: s.script := rfl
@[simp] theorem placeCommand_responses (w : Word) : (placeCommand w s).responses = s.responses := rfl
@[simp] theorem placeCommand_freeCount (w : Word) : (placeCommand w s).freeCount = s.freeCount := rfl

end Sys2Proof.Machine
end

