-- ==== Sys2Proof/Laws/Ops.lean ====
section
/-! SUPPORT. One lemma for each shared operation: everything it can answer. -/

namespace Sys2Proof.Machine

@[simp] theorem answer_eq_next {s t : State} {code : RspCode} {data : Word} :
    answer s code data = .next t ↔ respond s code data = t := by simp [answer]

theorem afterReset_of_rstDone {s : State} {r : Result} (h : s.rstDone = true) : afterReset s r = r := by
  simp [afterReset, h]

theorem afterReset_before {s : State} {r : Result} (h : s.rstDone = false) :
    afterReset s r = .refused .beforeReset := by simp [afterReset, h]

/-- A guarded command answers a next state only in a block that has been reset. -/
theorem afterReset_eq_next {s t : State} {r : Result} :
    afterReset s r = .next t ↔ s.rstDone = true ∧ r = .next t := by
  unfold afterReset
  split <;> simp_all

/-- `raise InvalidCharacter` always answers: ERR set, one response, nothing else. -/
theorem raiseInvalidCharacter_eq (s : State) :
    raiseInvalidCharacter s =
      .next (respond { s with err := true } .invalidCharacter (statusBits { s with err := true } ++ 0x000#12)) := rfl

theorem raiseIllegalCommand_of_rstDone {s : State} (h : s.rstDone = true) :
    raiseIllegalCommand s = .next (respond s .illegalCommand 0#32) := afterReset_of_rstDone h

/-- What an alphabet symbol does: it runs exactly under `INV`. -/
theorem presentSymbol_eq_next {s t : State} {idx : Index} :
    presentSymbol s idx = .next t ↔
      DecoderInv s ∧ respond (shiftIn s idx) .ok
        (dsymData (statusBits (shiftIn s idx)) false (emitsByte s) (emittedByte s idx)) = t := by
  unfold presentSymbol
  split
  · rename_i hi
    exact ⟨fun h => ⟨hi, answer_eq_next.mp h⟩, fun h => answer_eq_next.mpr h.2⟩
  · rename_i hi
    exact ⟨fun h => (nomatch h), fun h => absurd h.1 hi⟩

/-- Everything DSYM can answer: the sticky or first error, an alphabet symbol, or the padding symbol (R102). -/
theorem execDsym_cases {sym : Byte} {s t : State} (h : execDsym sym s = .next t) :
    s.rstDone = true ∧
      ((s.err = true ∧ raiseInvalidCharacter s = .next t) ∨
       (s.err = false ∧ (rev sym).valid = true ∧ presentSymbol s (rev sym).idx = .next t) ∨
       (s.err = false ∧ (rev sym).valid = false ∧ (rev sym).pad = true ∧ presentPad s = .next t) ∨
       (s.err = false ∧ (rev sym).valid = false ∧ (rev sym).pad = false ∧ raiseInvalidCharacter s = .next t)) := by
  obtain ⟨hr, h⟩ := afterReset_eq_next.mp h
  refine ⟨hr, ?_⟩
  split at h
  · exact .inl ⟨‹_›, h⟩
  · split at h
    · exact .inr (.inl ⟨by simp_all, ‹_›, h⟩)
    · split at h
      · exact .inr (.inr (.inl ⟨by simp_all, by simp_all, ‹_›, h⟩))
      · exact .inr (.inr (.inr ⟨by simp_all, by simp_all, by simp_all, h⟩))

/-- Before the reset a word is refused, legal or illegal (R174). -/
theorem exec_of_not_rstDone (i : Instr) {s : State} (h : s.rstDone = false) :
    exec i s = .refused .beforeReset := by
  cases i <;> exact afterReset_before h

theorem performWord_ok {w : Word} {i : Instr} (h : decode w = .ok i) (s : State) : performWord w s = exec i s := by
  simp [performWord, h]

theorem performWord_error {w : Word} {e : DecodeReject} (h : decode w = .error e) (s : State) :
    performWord w s = raiseIllegalCommand s := by
  simp [performWord, h]

/-- The step on an issued word with none in flight performs it. -/
theorem step_command {w : Word} {rest : List HostEvent} {s : State} (hs : s.script = .command w :: rest)
    (hf : s.inFlight = none) : step s = performWord w { s with script := rest } := by
  simp [step, nextEvent, hs, takeCommand, hf]

end Sys2Proof.Machine
end

