-- ==== Sys2Proof/Laws/Operands.lean ====
section
/-! SUPPORT. The data paths and data words, bit by bit: each lemma says once what a layout of Machine/Operands.lean or
Machine/Flags.lean holds at every bit, so that no proof unfolds a concatenation. -/

namespace Sys2Proof.Machine

/-- Each bit of three bytes side by side, the first one most significant (20_memory.md R44). -/
theorem getLsbD_cat24 (b0 b1 b2 : Byte) (k : Nat) : BitVec.getLsbD (w := 24) (b0 ++ b1 ++ b2) k =
    if k < 8 then b2.getLsbD k else if k < 16 then b1.getLsbD (k - 8) else b0.getLsbD (k - 16) := by
  rw [show BitVec.getLsbD (w := 24) (b0 ++ b1 ++ b2) k = BitVec.getLsbD (w := 8 + 8 + 8) (b0 ++ b1 ++ b2) k from rfl,
    BitVec.getLsbD_append]
  split
  · rfl
  · rw [BitVec.getLsbD_append, Nat.sub_sub]; split <;> rename_i h1 h2
    · rw [if_pos (by omega)]
    · rw [if_neg (by omega)]

/-- Each bit of the packed symbols, S0 in the top lane (R68). -/
theorem getLsbD_packSymbols (s0 s1 s2 s3 : Byte) (k : Nat) : (packSymbols s0 s1 s2 s3).getLsbD k =
    if k < 8 then s3.getLsbD k else if k < 16 then s2.getLsbD (k - 8)
    else if k < 24 then s1.getLsbD (k - 16) else s0.getLsbD (k - 24) := by
  rw [show (packSymbols s0 s1 s2 s3).getLsbD k = BitVec.getLsbD (w := 8 + 8 + 8 + 8) (s0 ++ s1 ++ s2 ++ s3) k from rfl]
  simp only [BitVec.getLsbD_append, Nat.sub_sub]
  by_cases h0 : k < 8
  · simp [h0]
  by_cases h1 : k < 16
  · simp [h0, h1, show k - 8 < 8 by omega]
  by_cases h2 : k < 24
  · simp [h0, h1, h2, show ¬ k - 8 < 8 by omega, show k - 16 < 8 by omega]
  · simp [h0, h1, h2, show ¬ k - 8 < 8 by omega, show ¬ k - 16 < 8 by omega]

/-- Each bit of `STATUS[31:12]` (10_state.md R29). -/
theorem getLsbD_statusBits (s : State) (k : Nat) : (statusBits s).getLsbD k =
    if k < 12 then s.acc.getLsbD k else if k < 16 then s.cnt.getLsbD (k - 12)
    else if k < 18 then s.padc.getLsbD (k - 16) else if k = 18 then s.ipad else decide (k = 19) && s.err := by
  rw [show (statusBits s).getLsbD k = BitVec.getLsbD (w := 1 + 1 + 2 + 4 + 12)
    (BitVec.ofBool s.err ++ BitVec.ofBool s.ipad ++ s.padc ++ s.cnt ++ s.acc) k from rfl]
  simp only [BitVec.getLsbD_append, BitVec.getLsbD_ofBool]
  simp only [Nat.sub_sub, Nat.reduceAdd]
  by_cases h0 : k < 12
  · simp [h0]
  by_cases h1 : k < 16
  · simp [h0, h1, show k - 12 < 4 by omega]
  by_cases h2 : k < 18
  · simp [h0, h1, h2, show ¬ k - 12 < 4 by omega, show k - 16 < 2 by omega]
  by_cases h3 : k = 18
  · subst h3; simp
  · simp [h0, h1, h2, h3, show ¬ k - 12 < 4 by omega, show ¬ k - 16 < 2 by omega, show ¬ k - 18 = 0 by omega,
      show k - 19 = 0 ↔ k = 19 by omega]

/-- `STATUS` has `STATUS[31:12]` above twelve zeros (R29). -/
theorem getLsbD_statusWord (s : State) (k : Nat) : (statusWord s).getLsbD k =
    (decide (12 ≤ k) && (statusBits s).getLsbD (k - 12)) := by
  rw [show (statusWord s).getLsbD k = BitVec.getLsbD (w := 20 + 12) (statusBits s ++ 0#12) k from rfl,
    BitVec.getLsbD_append]
  split <;> simp <;> omega

/-- Each bit of a DSYM response (41_decoder.md R103). -/
theorem getLsbD_dsymData (st : BitVec 20) (ps bv : Bool) (byte : Byte) (k : Nat) : (dsymData st ps bv byte).getLsbD k =
    if k < 8 then byte.getLsbD k else if k = 8 then bv else if k = 9 then ps else if k < 12 then false
    else st.getLsbD (k - 12) := by
  rw [show (dsymData st ps bv byte).getLsbD k = BitVec.getLsbD (w := 20 + 2 + 1 + 1 + 8)
    (st ++ 0b00#2 ++ BitVec.ofBool ps ++ BitVec.ofBool bv ++ byte) k from rfl]
  simp only [BitVec.getLsbD_append, BitVec.getLsbD_ofBool]
  simp only [Nat.sub_sub, Nat.reduceAdd]
  by_cases h0 : k < 8
  · simp [h0]
  by_cases h1 : k = 8
  · subst h1; simp
  by_cases h2 : k = 9
  · subst h2; simp
  by_cases h3 : k < 12
  · have : k = 10 ∨ k = 11 := by omega
    rcases this with rfl | rfl <;> simp
  · simp [h0, h1, h2, h3, show ¬ k - 8 < 1 by omega, show ¬ k - 9 = 0 by omega, show ¬ k ≤ 11 by omega]

/-- Each bit of an RLUT response (R110). -/
theorem getLsbD_rlutData (e : RevEntry) (k : Nat) : (rlutData e).getLsbD k =
    if k < 6 then e.idx.getLsbD k else if k < 8 then false else if k = 8 then e.valid else decide (k = 9) && e.pad := by
  rw [show (rlutData e).getLsbD k = (BitVec.setWidth (w := 1 + 1 + 2 + 6) 32
    (BitVec.ofBool e.pad ++ BitVec.ofBool e.valid ++ 0b00#2 ++ e.idx)).getLsbD k from rfl]
  rw [BitVec.getLsbD_setWidth]
  simp only [BitVec.getLsbD_append, BitVec.getLsbD_ofBool]
  simp only [Nat.sub_sub, Nat.reduceAdd]
  by_cases h0 : k < 6
  · simp [h0]; omega
  by_cases h1 : k < 8
  · have : k = 6 ∨ k = 7 := by omega
    rcases this with rfl | rfl <;> simp
  by_cases h2 : k = 8
  · subst h2; simp
  · simp [h0, h1, h2, show ¬ k - 6 < 2 by omega]
    by_cases h3 : k = 9
    · subst h3; simp
    · simp [h3, show ¬ k - 9 = 0 by omega, show ¬ k - 8 = 0 by omega]

/-- The four lanes of packed symbols, S0 first (20_memory.md R46). -/
theorem symbolsOf_packSymbols (s0 s1 s2 s3 : Byte) : symbolsOf (packSymbols s0 s1 s2 s3) = [s0, s1, s2, s3] := by
  simp only [symbolsOf, List.cons.injEq, and_true]
  refine ⟨?_, ?_, ?_, ?_⟩ <;> apply BitVec.eq_of_getLsbD_eq <;> intro k hk <;>
    rw [BitVec.getLsbD_extractLsb', getLsbD_packSymbols] <;>
    simp only [hk, decide_true, Bool.true_and]
  · rw [if_neg (by omega), if_neg (by omega), if_neg (by omega)]; congr 1; omega
  · rw [if_neg (by omega), if_neg (by omega), if_pos (by omega)]; congr 1; omega
  · rw [if_neg (by omega), if_pos (by omega)]; congr 1; omega
  · rw [if_pos (by omega)]; congr 1; omega

/-- The shift-in as the spec's pseudocode writes it: `(s.ACC << 6) | IDX` (R102). -/
theorem accShifted_eq_or (s : State) (idx : Index) : accShifted s idx = (s.acc.toNat <<< 6 ||| idx.toNat) := by
  rw [accShifted, ← Nat.shiftLeft_add_eq_or_of_lt idx.isLt, Nat.shiftLeft_eq]

/-- Under `INV` the shifted accumulator fits in 12 bits (R106). -/
theorem accShifted_lt {s : State} (h : DecoderInv s) (idx : Index) : accShifted s idx < 2 ^ cntShifted s ∧ cntShifted s ≤ 12 := by
  have hi := idx.isLt
  obtain ⟨hc, ha⟩ := h
  rcases hc with hc | hc | hc | hc <;> rw [hc] at ha <;> simp [accShifted, cntShifted, hc] at ha ⊢ <;> omega

/-- The three kinds of symbol: alphabet, padding, invalid (R25). -/
theorem rev_cases (c : Byte) :
    ((rev c).valid = true ∧ (rev c).pad = false) ∨ (c = 0x3D#8 ∧ rev c = ⟨true, false, 0#6⟩) ∨
      (c ≠ 0x3D#8 ∧ rev c = ⟨false, false, 0#6⟩) := by
  revert c; decide

end Sys2Proof.Machine
end

