-- ==== Sys2Proof/Laws/PerInstr.lean ====
section
/-! SUPPORT. Statements made of every instruction as syntax, one lemma per constructor. -/

namespace Sys2Proof.Laws.EncodeMatches

/-- The encoded word has the instruction's match under its mask (30_encoding.md R65), and 0 in every bit the instruction
does not read (R69). -/
def Statement (i : Instr) : Prop :=
  encode i &&& maskWord i = matchWord i ∧ encode i &&& readMask i = encode i

theorem enc1 (b0 : Byte) : Statement (.enc1 b0) := by
  constructor <;> apply BitVec.eq_of_getLsbD_eq <;> intro k hk <;> simp only [encode, maskWord, matchWord, readMask] <;>
    interval_cases k <;> simp

theorem enc2 (b0 b1 : Byte) : Statement (.enc2 b0 b1) := by
  constructor <;> apply BitVec.eq_of_getLsbD_eq <;> intro k hk <;> simp only [encode, maskWord, matchWord, readMask] <;>
    interval_cases k <;> simp

theorem enc3 (b0 b1 b2 : Byte) : Statement (.enc3 b0 b1 b2) := by
  constructor <;> apply BitVec.eq_of_getLsbD_eq <;> intro k hk <;> simp only [encode, maskWord, matchWord, readMask] <;>
    interval_cases k <;> simp

theorem dinit : Statement .dinit := by unfold Statement; decide

theorem dsym (sym : Byte) : Statement (.dsym sym) := by
  constructor <;> apply BitVec.eq_of_getLsbD_eq <;> intro k hk <;> simp only [encode, maskWord, matchWord, readMask] <;>
    interval_cases k <;> simp

theorem dend : Statement .dend := by unfold Statement; decide

theorem stat : Statement .stat := by unfold Statement; decide

theorem alph (idx : Index) : Statement (.alph idx) := by
  constructor <;> apply BitVec.eq_of_getLsbD_eq <;> intro k hk <;> simp only [encode, maskWord, matchWord, readMask] <;>
    interval_cases k <;> simp

theorem rlut (sym : Byte) : Statement (.rlut sym) := by
  constructor <;> apply BitVec.eq_of_getLsbD_eq <;> intro k hk <;> simp only [encode, maskWord, matchWord, readMask] <;>
    interval_cases k <;> simp

end Sys2Proof.Laws.EncodeMatches
end

