-- ==== Sys2Proof/Tests/Slice0.lean ====
section
/-! SUPPORT. The model's own tests. Expected results are the spec's: 95_test_vectors.md, the examples of the instruction
rules, or the tables of the rules named. The theorems `hyps_<statement>` each show a concrete state and operands that
meet the hypotheses of one statement of Certificates/Slice0/Obligations.lean. -/

namespace Sys2Proof.Tests

open Sys2Proof.Machine

/-- A block after reset with these decoder registers. -/
def decoder (acc : BitVec 12) (cnt : BitVec 4) (err : Bool) (padc : BitVec 2) (ipad : Bool) : State :=
  { State.reset with acc := acc, cnt := cnt, err := err, padc := padc, ipad := ipad }

/-- The next state a result answers, if it answers one. -/
def nextOf : Result → Option State
  | .next t => some t
  | .fault _ => none
  | .refused _ => none

/-- The response and the decoder registers after one step on the word `w`. -/
def afterWord (w : Nat) (s : State) : Option (List Response × BitVec 12 × BitVec 4 × Bool × BitVec 2 × Bool) :=
  (nextOf (step (s.withFetchWord 32 w))).map fun t => (t.responses, t.acc, t.cnt, t.err, t.padc, t.ipad)

/-! ## Operand checks: an ill-formed term for each check (30_encoding.md R69) -/

theorem test_wellFormed_refuses_byte : AsmLine.wellFormed (.enc1 256) = false ∧ AsmLine.wellFormed (.dsym 256) = false ∧
    AsmLine.wellFormed (.rlut 256) = false := by decide
theorem test_wellFormed_refuses_second_byte : AsmLine.wellFormed (.enc2 0 256) = false ∧
    AsmLine.wellFormed (.enc2 256 0) = false := by decide
theorem test_wellFormed_refuses_third_byte : AsmLine.wellFormed (.enc3 0 0 256) = false ∧
    AsmLine.wellFormed (.enc3 0 256 0) = false ∧ AsmLine.wellFormed (.enc3 256 0 0) = false := by decide
theorem test_wellFormed_refuses_index : AsmLine.wellFormed (.alph 64) = false := by decide
theorem test_wellFormed_refuses_word : AsmLine.wellFormed (.word 0x100000000) = false := by decide
theorem test_wellFormed_refuses_group : AsmLine.wellFormed (.enc []) = false ∧ AsmLine.wellFormed (.enc [0, 0, 0, 0]) = false ∧
    AsmLine.wellFormed (.enc [256]) = false ∧ AsmLine.wellFormed (.encs [0, 256]) = false := by decide
theorem test_wellFormed_accepts_bounds : AsmLine.wellFormed (.enc3 255 0 255) = true ∧
    AsmLine.wellFormed (.alph 63) = true ∧ AsmLine.wellFormed (.word 0xFFFFFFFF) = true := by decide

/-! ## Decoding: words written bit by bit from the formats of R62 -/

theorem test_decode_enc1 : decode 0b0001_00_01_01100110_00000000_00000000#32 = .ok (.enc1 0x66#8) := by decide
theorem test_decode_enc2 : decode 0b0001_11_10_01100110_01101111_11111111#32 = .ok (.enc2 0x66#8 0x6F#8) := by decide
theorem test_decode_enc3 : decode 0b0001_00_11_01001000_01101111_01101100#32 = .ok (.enc3 0x48#8 0x6F#8 0x6C#8) := by decide
theorem test_decode_dinit : decode 0b0010_1010101010101010101010101010#32 = .ok .dinit := by decide
theorem test_decode_dsym : decode 0b0011_11111111111111111111_01011010#32 = .ok (.dsym 0x5A#8) := by decide
theorem test_decode_dend : decode 0b0100_0000000000000000000000000001#32 = .ok .dend := by decide
theorem test_decode_stat : decode 0b0101_1000000000000000000000000000#32 = .ok .stat := by decide
theorem test_decode_alph : decode 0b0110_0000000000000000000001_011001#32 = .ok (.alph 25#6) := by decide
theorem test_decode_rlut : decode 0b0111_00000000000000000000_00111101#32 = .ok (.rlut 0x3D#8) := by decide
theorem test_decode_illegal : decode 0b0001_11_00_11111111_11111111_11111111#32 = .error .emptyGroup ∧
    decode 0b1000_0000000000000000000000000000#32 = .error (.illegalOpcode 0x8#4) := by decide
theorem test_table_word : decodeTableWord 32 0x13666F6F = some (.enc3 0x66#8 0x6F#8 0x6F#8) ∧
    decodeTableWord 32 0xF0000000 = none := by decide

/-! ## One step per instruction (95_test_vectors.md section 2) -/

theorem test_enc1_lanes_ignored : afterWord 0x1166FFFF (decoder 25#12 6#4 false 0#2 false) =
    some ([⟨.ok, 0x5A673D3D#32⟩], 25#12, 6#4, false, 0#2, false) := by decide
theorem test_enc1_ff : afterWord 0x11FF0000 State.reset =
    some ([⟨.ok, 0x2F773D3D#32⟩], 0#12, 0#4, false, 0#2, false) := by decide
theorem test_enc2_ff : afterWord 0x12FFFF00 State.reset =
    some ([⟨.ok, 0x2F2F383D#32⟩], 0#12, 0#4, false, 0#2, false) := by decide
theorem test_enc2_ba : afterWord 0x12626100 State.reset =
    some ([⟨.ok, 0x596D453D#32⟩], 0#12, 0#4, false, 0#2, false) := by decide
theorem test_enc3_ignored_bits : afterWord 0x1F666F6F State.reset =
    some ([⟨.ok, 0x5A6D3976#32⟩], 0#12, 0#4, false, 0#2, false) := by decide
theorem test_enc3_high_byte : afterWord 0x136120C3 State.reset =
    some ([⟨.ok, 0x59534444#32⟩], 0#12, 0#4, false, 0#2, false) := by decide
theorem test_alph_bounds : afterWord 0x6000003F State.reset =
    some ([⟨.ok, 0x0000002F#32⟩], 0#12, 0#4, false, 0#2, false) := by decide
theorem test_alph_modulo : afterWord 0x60000040 State.reset =
    some ([⟨.ok, 0x00000041#32⟩], 0#12, 0#4, false, 0#2, false) := by decide
theorem test_rlut_digit : afterWord 0x70000039 (decoder 0#12 0#4 true 0#2 false) =
    some ([⟨.ok, 0x0000013D#32⟩], 0#12, 0#4, true, 0#2, false) := by decide
theorem test_rlut_invalid : afterWord 0x7000002D State.reset =
    some ([⟨.ok, 0x00000000#32⟩], 0#12, 0#4, false, 0#2, false) := by decide
theorem test_dsym_emits : afterWord 0x3000006D (decoder 25#12 6#4 false 0#2 false) =
    some ([⟨.ok, 0x04006166#32⟩], 6#12, 4#4, false, 0#2, false) := by decide
theorem test_dsym_interior_pad : afterWord 0x30000061 (decoder 0#12 4#4 false 1#2 false) =
    some ([⟨.ok, 0x52002106#32⟩], 2#12, 2#4, false, 1#2, true) := by decide
theorem test_dsym_pad_saturates : afterWord 0x3000003D (decoder 0#12 4#4 false 3#2 false) =
    some ([⟨.ok, 0x34000200#32⟩], 0#12, 4#4, false, 3#2, false) := by decide
theorem test_dsym_invalid : afterWord 0x30000021 (decoder 6#12 4#4 false 0#2 false) =
    some ([⟨.invalidCharacter, 0x84006000#32⟩], 6#12, 4#4, true, 0#2, false) := by decide
theorem test_dsym_sticky : afterWord 0x30000076 (decoder 6#12 4#4 true 0#2 false) =
    some ([⟨.invalidCharacter, 0x84006000#32⟩], 6#12, 4#4, true, 0#2, false) := by decide
theorem test_dinit_discards_error : afterWord 0x20000000 (decoder 6#12 4#4 true 0#2 false) =
    some ([⟨.ok, 0x84006000#32⟩], 0#12, 0#4, false, 0#2, false) := by decide
theorem test_dend_reports_error : afterWord 0x40000000 (decoder 6#12 4#4 true 0#2 false) =
    some ([⟨.invalidCharacter, 0x84006000#32⟩], 0#12, 0#4, false, 0#2, false) := by decide
theorem test_dend_ok : afterWord 0x40000000 (decoder 0#12 4#4 false 2#2 false) =
    some ([⟨.ok, 0x24000000#32⟩], 0#12, 0#4, false, 0#2, false) := by decide
theorem test_stat : afterWord 0x50000000 (decoder 2#12 2#4 true 1#2 true) =
    some ([⟨.ok, 0xD2002000#32⟩], 2#12, 2#4, true, 1#2, true) := by decide
theorem test_illegal : afterWord 0x10660000 (decoder 25#12 6#4 true 0#2 false) =
    some ([⟨.illegalCommand, 0x00000000#32⟩], 25#12, 6#4, true, 0#2, false) := by decide

/-- R174: a command before the first reset. -/
theorem test_before_reset : nextOf (step { powerUp with script := [.command 0x50000000#32] }) = none := rfl
/-- R173: a reset discards the command in flight. -/
theorem test_reset_discards : nextOf (step { State.reset with inFlight := some 0x3000005A#32, script := [.reset] }) =
    some State.reset := by decide
/-- R142: the run has ended when there is nothing left to issue and nothing in flight. -/
theorem test_run_ended : RunEnded State.reset ∧ ¬ RunEnded { State.reset with script := [.command 0x50000000#32] } ∧
    ¬ RunEnded { State.reset with script := [.reset, .offer 0x50000000#32] } ∧
    RunEnded { State.reset with script := [.accept, .reset, .powerCycle] } ∧
    ¬ RunEnded { State.reset with inFlight := some 0x50000000#32 } := by decide

/-! ## Host programs and the assembler (95_test_vectors.md V2; 30_encoding.md R69, R70) -/

theorem test_encode_f : (hostEncode [0x66#8] State.reset).map Prod.fst = some [0x5A#8, 0x67#8, 0x3D#8, 0x3D#8] := by decide
theorem test_decode_nothing : (hostDecode [] State.reset).map Prod.fst = some (.bytes []) := by decide
/-- `ENC.3 'f', 'o', 0x6F ; x` -/
theorem test_assemble_text : assembleText ['E', 'N', 'C', '.', '3', ' ', '\'', 'f', '\'', ',', ' ', '\'', 'o', '\'', ',',
    ' ', '0', 'x', '6', 'F', ' ', ';', ' ', 'x'] = some [0x13666F6F#32] := by decide
/-- `ENCS [102, 111, 111, 0x66]` -/
theorem test_assemble_encs : assembleText ['E', 'N', 'C', 'S', ' ', '[', '1', '0', '2', ',', '1', '1', '1', ',', '1', '1',
    '1', ',', '0', 'x', '6', '6', ']'] = some [0x13666F6F#32, 0x11660000#32] := by decide
/-- `DECODE "Z="` -/
theorem test_assemble_decode : assembleText ['D', 'E', 'C', 'O', 'D', 'E', ' ', '"', 'Z', '=', '"'] =
    some [0x20000000#32, 0x3000005A#32, 0x3000003D#32, 0x40000000#32] := by decide
/-- `ALPH '0'` is index 0x30: the literal of R69 as an index, log entry 16. -/
theorem test_assemble_literal_index : assembleText ['A', 'L', 'P', 'H', ' ', '\'', '0', '\''] = some [0x60000030#32] := by
  decide
/-- `ALPH 64` and `STAT 1` are assembly errors; a comment alone is not. -/
theorem test_assemble_errors : assembleText ['A', 'L', 'P', 'H', ' ', '6', '4'] = none ∧
    assembleText ['S', 'T', 'A', 'T', ' ', '1'] = none ∧ assembleText [';', 'x'] = some [] := by decide

/-! ## The hypotheses of the statements are met -/

theorem hyps_IgnoredBitsHaveNoEffect : decode 0x11660000#32 = .ok (.enc1 0x66#8) ∧
    0x1D66FFFF#32 &&& readMask (.enc1 0x66#8) = 0x11660000#32 &&& readMask (.enc1 0x66#8) := by decide
theorem hyps_OpcodeMapRows : 0x1D66FFFF#32 &&& 0xF3000000#32 = 0x11000000#32 ∧
    0x1E6666FF#32 &&& 0xF3000000#32 = 0x12000000#32 ∧ 0x1FFFFFFF#32 &&& 0xF3000000#32 = 0x13000000#32 ∧
    0x2FFFFFFF#32 &&& 0xF0000000#32 = 0x20000000#32 ∧ 0x3FFFFFFF#32 &&& 0xF0000000#32 = 0x30000000#32 ∧
    0x4FFFFFFF#32 &&& 0xF0000000#32 = 0x40000000#32 ∧ 0x5FFFFFFF#32 &&& 0xF0000000#32 = 0x50000000#32 ∧
    0x6FFFFFFF#32 &&& 0xF0000000#32 = 0x60000000#32 ∧ 0x7FFFFFFF#32 &&& 0xF0000000#32 = 0x70000000#32 ∧
    decode 0x7FFFFFFF#32 = .ok (.rlut 0xFF#8) ∧ isIllegalWord 0x1CFFFFFF#32 := by decide
theorem hyps_IllegalWordsExactly : isIllegalWord 0x0FFFFFFF#32 ∧ isIllegalWord 0x80000000#32 ∧ isIllegalWord 0xFFFFFFFF#32 ∧
    isIllegalWord 0x1CFFFFFF#32 ∧ ¬ isIllegalWord 0x11000000#32 ∧ ¬ isIllegalWord 0x7FFFFFFF#32 ∧
    State.reset.rstDone = true := by decide
theorem hyps_StepRunsDecodedCommand : ∃ s : State, s.script = .command 0x50000000#32 :: [] ∧ s.inFlight = none ∧
    decode 0x50000000#32 = .ok .stat ∧ decode 0x10000000#32 = .error .emptyGroup :=
  ⟨{ State.reset with script := [.command 0x50000000#32] }, by decide⟩
theorem hyps_OfferThenAcceptIsOneCommand : ∃ s : State, Ready s ∧ s.script = .offer 0x3000005A#32 :: .accept :: [] :=
  ⟨{ State.reset with script := [.offer 0x3000005A#32, .accept] }, by decide⟩
theorem hyps_CommandInFlightStalls : ∃ s t u : State, s.inFlight = some 0x50000000#32 ∧ t.inFlight = some 0x50000000#32 ∧
    s.script = .command 0x50000000#32 :: [] ∧ t.script = .offer 0x50000000#32 :: [] ∧
    u.rstDone = false ∧ u.inFlight = none ∧ u.script = .accept :: [] :=
  ⟨{ State.reset with inFlight := some 0x50000000#32, script := [.command 0x50000000#32] },
   { State.reset with inFlight := some 0x50000000#32, script := [.offer 0x50000000#32] },
   { State.reset with rstDone := false, script := [.accept] }, by decide⟩
theorem hyps_ResetFromAnyState : ∃ s : State, s.script = .reset :: [] ∧ s.rstDone = false ∧ s.inFlight = some 0#32 :=
  ⟨{ State.reset with rstDone := false, inFlight := some 0#32, script := [.reset] }, by decide⟩
theorem hyps_NoCommandBeforeReset : ∃ s t : State, s.rstDone = false ∧ s.inFlight = none ∧
    s.script = .command 0x50000000#32 :: [] ∧ t.rstDone = false ∧ t.inFlight = none ∧ t.script = .offer 0#32 :: [] :=
  ⟨{ State.reset with rstDone := false, script := [.command 0x50000000#32] },
   { State.reset with rstDone := false, script := [.offer 0#32] }, by decide⟩
theorem hyps_RegistersPersistUntilPowerLoss : State.reset.script = [] ∧
    ({ State.reset with script := [.powerCycle] } : State).script = .powerCycle :: [] := by decide
theorem hyps_AlphabetByCodeRange : (25#6).toNat ≤ 25 ∧ (26 ≤ (26#6).toNat ∧ (51#6).toNat ≤ 51) ∧
    (52 ≤ (52#6).toNat ∧ (61#6).toNat ≤ 61) ∧ (62#6).toNat = 62 ∧ (63#6).toNat = 63 ∧ alphabet 63#6 = alphabet 63#6 := by
  decide
theorem hyps_ReverseTableContents : rev 0x41#8 = ⟨false, true, 0#6⟩ ∧ rev 0x5A#8 = ⟨false, true, 25#6⟩ ∧
    rev 0x61#8 = ⟨false, true, 26#6⟩ ∧ rev 0x7A#8 = ⟨false, true, 51#6⟩ ∧ rev 0x30#8 = ⟨false, true, 52#6⟩ ∧
    rev 0x39#8 = ⟨false, true, 61#6⟩ ∧ rev 0x2B#8 = ⟨false, true, 62#6⟩ ∧ rev 0x2F#8 = ⟨false, true, 63#6⟩ ∧
    rev 0x3D#8 = ⟨true, false, 0#6⟩ ∧
    [0x00#8, 0x2A#8, 0x2C#8, 0x2E#8, 0x3A#8, 0x3C#8, 0x3E#8, 0x40#8, 0x5B#8, 0x60#8, 0x7B#8, 0xFF#8].all
      (fun c => rev c = ⟨false, false, 0#6⟩) = true := by decide
theorem hyps_ReverseTableInvertsAlphabet : (rev 0x2F#8).valid = true ∧ (rev 0x3D#8).pad = true := by decide
theorem hyps_StatusWordFields : State.reset.rstDone = true ∧ ∃ t, exec (.dsym 0x5A#8) State.reset = .next t :=
  ⟨rfl, _, rfl⟩
theorem hyps_GroupIndicesByBits : (1 = 1 ∨ 1 = 2 ∨ 1 = 3) ∧ (2 = 1 ∨ 2 = 2 ∨ 2 = 3) ∧ (3 = 1 ∨ 3 = 2 ∨ 3 = 3) := by decide
theorem hyps_PaddingReplacesZeroFill : (2 < 4 - (3 - 2) ∧ 4 - (3 - 2) ≤ 3) ∧ (1 < 4 - (3 - 1) ∧ 4 - (3 - 1) ≤ 2) ∧
    3 < 4 - (3 - 3) := by decide
theorem hyps_Enc3EncodesGroup : 0x1FFFFFFF#32 &&& 0xF3000000#32 = 0x13000000#32 ∧ State.reset.rstDone = true := by decide
theorem hyps_Enc2EncodesGroup : 0x1EFFFFFF#32 &&& 0xF3000000#32 = 0x12000000#32 ∧ State.reset.rstDone = true := by decide
theorem hyps_Enc1EncodesGroup : 0x1DFFFFFF#32 &&& 0xF3000000#32 = 0x11000000#32 ∧ State.reset.rstDone = true := by decide
theorem hyps_AlphReadsAlphabet : 0x6FFFFFFF#32 &&& 0xF0000000#32 = 0x60000000#32 ∧ State.reset.rstDone = true := by decide
theorem hyps_EncoderProperties : State.reset.rstDone = true ∧ 4 - (3 - 1) ≤ 2 ∧ 1 < 4 - (3 - 1) := by decide
theorem hyps_GroupDecodesToItsBytes : Ready State.reset ∧ Clean State.reset ∧
    (∃ t, exec (encOf 1 0x66#8 0#8 0#8) State.reset = .next t) ∧ (∃ t, exec (encOf 2 0x66#8 0#8 0#8) State.reset = .next t) ∧
    ∃ t, exec (encOf 3 0x66#8 0#8 0#8) State.reset = .next t :=
  ⟨by decide, by decide, ⟨_, rfl⟩, ⟨_, rfl⟩, _, rfl⟩
theorem hyps_DinitClears : 0x2FFFFFFF#32 &&& 0xF0000000#32 = 0x20000000#32 ∧ State.reset.rstDone = true ∧
    Clean State.reset ∧ (∃ t, exec .dinit State.reset = .next t) ∧ ∃ t, exec (.dsym 0x5A#8) State.reset = .next t :=
  ⟨by decide, rfl, by decide, ⟨_, rfl⟩, _, rfl⟩
theorem hyps_DendReportsAndClears : 0x4FFFFFFF#32 &&& 0xF0000000#32 = 0x40000000#32 ∧ Ready State.reset ∧
    Clean State.reset ∧ (decoder 0#12 4#4 true 0#2 false).rstDone = true ∧ ∃ t, exec .dend State.reset = .next t :=
  ⟨by decide, by decide, by decide, rfl, _, rfl⟩
theorem hyps_StatReadsStatus : 0x5FFFFFFF#32 &&& 0xF0000000#32 = 0x50000000#32 ∧
    (decoder 0#12 0#4 true 0#2 false).rstDone = true ∧ Clean State.reset ∧
    ∃ t, exec (.dsym 0x21#8) State.reset = .next t :=
  ⟨by decide, rfl, by decide, _, rfl⟩
theorem hyps_RlutReadsReverseTable : 0x7FFFFFFF#32 &&& 0xF0000000#32 = 0x70000000#32 ∧
    (decoder 0#12 0#4 true 0#2 false).rstDone = true := by decide
theorem hyps_DsymInvalidIsSticky : State.reset.rstDone = true ∧ State.reset.err = false ∧
    rev 0x21#8 = ⟨false, false, 0#6⟩ ∧ (decoder 6#12 4#4 true 0#2 false).err = true ∧ Clean State.reset ∧
    ∃ t, performWord 0x50000000#32 (decoder 6#12 4#4 true 0#2 false) = .next t ∧
      decode 0x50000000#32 = .ok .stat :=
  ⟨rfl, rfl, by decide, rfl, by decide, _, rfl, by decide⟩
theorem hyps_DsymPaddingIsSkipped : (decoder 0#12 4#4 false 3#2 false).rstDone = true ∧
    (decoder 0#12 4#4 false 3#2 false).err = false ∧ Ready State.reset ∧ Clean State.reset := by decide
theorem hyps_DsymShiftsInSymbol : (∀ s ∈ [decoder 0#12 0#4 false 0#2 false, decoder 3#12 2#4 false 0#2 false,
      decoder 15#12 4#4 false 1#2 false, decoder 63#12 6#4 false 3#2 true],
      s.rstDone = true ∧ DecoderInv s ∧ s.err = false) ∧
    (0#4).toNat + 6 < 8 ∧ 8 ≤ (2#4).toNat + 6 ∧ rev 0x2F#8 = ⟨false, true, 63#6⟩ := by decide
theorem hyps_DsymBounds : (∀ s ∈ [decoder 0#12 0#4 false 0#2 false, decoder 3#12 2#4 false 0#2 false,
      decoder 15#12 4#4 false 1#2 false, decoder 63#12 6#4 false 3#2 true],
      DecoderInv s ∧ s.err = false ∧ (nextOf (exec (.dsym 0x2F#8) s)).isSome = true) ∧ (rev 0x2F#8).valid = true := by decide
theorem hyps_DsymResponseFields : (∃ t, exec (.dsym 0x3D#8) State.reset = .next t) ∧
    (∃ t, exec (.dsym 0x5A#8) (decoder 63#12 6#4 false 0#2 false) = .next t) ∧
    ∃ t, exec (.dsym 0x21#8) State.reset = .next t := ⟨⟨_, rfl⟩, ⟨_, rfl⟩, _, rfl⟩
theorem hyps_DsymCompletesOnEverySymbol : (decoder 63#12 6#4 false 0#2 false).rstDone = true ∧
    DecoderInv (decoder 63#12 6#4 false 0#2 false) := by decide
theorem hyps_DsymOutsideInvIsRefused : (decoder 64#12 6#4 false 0#2 false).rstDone = true ∧
    ¬ DecoderInv (decoder 64#12 6#4 false 0#2 false) ∧ ¬ DecoderInv (decoder 0#12 1#4 true 0#2 false) ∧
    (rev 0x5A#8).valid = true ∧ (rev 0x3D#8).valid = false := by decide
theorem hyps_AccumulatorRefinesSource : Ready (decoder 63#12 6#4 false 0#2 false) ∧
    DecoderInv (decoder 63#12 6#4 false 0#2 false) ∧ (decoder 63#12 6#4 false 0#2 false).err = false ∧
    (decoder 63#12 6#4 false 0#2 false).acc.toNat = 127 % 2 ^ (decoder 63#12 6#4 false 0#2 false).cnt.toNat := by decide
theorem hyps_StepKeepsSafe : Safe (decoder 63#12 6#4 true 0#2 false) ∧
    (nextOf (step ((decoder 63#12 6#4 true 0#2 false).withFetchWord 32 0x3000005A))).isSome = true := by decide
theorem hyps_EndedRunStaysEnded : RunEnded { State.reset with script := [.powerCycle, .accept] } := by decide
theorem hyps_SafeStepAnswers : Safe State.reset ∧ Safe { State.reset with rstDone := false } := by decide
theorem hyps_ResponseCodePrecedence : (decoder 63#12 6#4 true 0#2 false).rstDone = true ∧
    DecoderInv (decoder 63#12 6#4 true 0#2 false) := by decide
theorem hyps_ResponsesOnlyGrow : (nextOf (step { State.reset with inFlight := some 0#32, script := [.accept] })).isSome = true ∧
    (nextOf (step (State.reset.withFetchWord 32 0))).isSome = true := by decide
theorem hyps_OnlyDecoderCommandsWriteRegisters : (∀ sym, Instr.stat ≠ .dsym sym) ∧ Instr.stat ≠ .dinit ∧
    Instr.stat ≠ .dend ∧ ∃ t, exec .stat State.reset = .next t := ⟨nofun, nofun, nofun, _, rfl⟩
theorem hyps_FlagsSetByDsymClearedByInitOrEnd :
    (nextOf (exec (.dsym 0x21#8) State.reset)).map State.err = some true ∧
    (nextOf (exec (.dsym 0x5A#8) (decoder 0#12 0#4 false 1#2 false))).map State.ipad = some true ∧
    (nextOf (exec (.dsym 0x3D#8) State.reset)).map State.padc = some 1#2 ∧
    (nextOf (exec .dend (decoder 0#12 0#4 true 1#2 true))).map State.err = some false := by decide
theorem hyps_EncoderLearnsNothingOfDecoder : [Instr.enc1 0#8, .enc2 0#8 0#8, .enc3 0#8 0#8 0#8, .alph 0#6, .rlut 0#8].all
    isRegisterFree = true ∧ State.reset.rstDone = true := by decide
theorem hyps_InterleavingChangesNothing : decode 0x11FF0000#32 = .ok (.enc1 0xFF#8) ∧ isRegisterFree (.enc1 0xFF#8) = true ∧
    decode 0x50000000#32 = .ok .stat ∧ decode 0x00000000#32 = .error (.illegalOpcode 0#4) ∧
    (nextOf (performWord 0x11FF0000#32 State.reset)).isSome = true ∧ (nextOf (performWord 0x50000000#32 State.reset)).isSome ∧
    (nextOf (performWord 0x00000000#32 State.reset)).isSome = true ∧
    (nextOf (exec (.dsym 0x67#8) State.reset)).isSome = true := by decide
theorem hyps_IdempotentCommands : (∀ sym, Instr.dend ≠ .dsym sym) ∧ ∃ t, exec .dend State.reset = .next t :=
  ⟨nofun, _, rfl⟩
theorem hyps_Transactions : Ready State.reset ∧ Clean State.reset := by decide
theorem hyps_GarbageFails : ∃ c ∈ [0x5A#8, 0x21#8], (rev c).valid = false ∧ c ≠ 0x3D#8 := by decide
theorem hyps_TolerantDecode : ∀ c ∈ [0x5A#8, 0x67#8, 0x3D#8, 0x61#8], (rev c).valid = true ∨ c = 0x3D#8 := by decide
theorem hyps_NonAsciiFails : 0x80 ≤ 'é'.toNat ∧ 'é' ∈ ['Z', 'é'] ∧ 'Z'.toNat < 0x80 := by decide
theorem hyps_PseudoInstructions : assemble (.encs []) = some [] ∧ assemble (.encs [0, 255]) = some [0x1200FF00#32] := by decide

/-- R49: DSYM is not idempotent. -/
theorem test_dsym_not_idempotent : (nextOf (exec (.dsym 0x5A#8) State.reset)).map State.cnt = some 6#4 ∧
    ((nextOf (exec (.dsym 0x5A#8) State.reset)).bind fun t => (nextOf (exec (.dsym 0x5A#8) t)).map State.cnt) = some 4#4 := by
  decide

end Sys2Proof.Tests
end

namespace Sys2Proof.Machine

/-- Settles O6: the step performs the issued word, and performing it follows the two branches of the decoder. -/
theorem stepRunsDecodedCommand : Obligations.StepRunsDecodedCommand := by
  unfold Obligations.StepRunsDecodedCommand
  intro s w rest hscript hflight
  have hstep : step s = performWord w { s with script := rest } := step_command hscript hflight
  constructor
  · intro i hdecode
    exact hstep.trans (performWord_ok hdecode _)
  · intro e hdecode
    exact hstep.trans (performWord_error hdecode _)

end Sys2Proof.Machine

/-! # The state family: what a command can do, and the ROMs, reset and accumulator -/

namespace Sys2Proof.Machine

/-! ## The two ROMs -/

theorem rev_padSymbol : rev 0x3D#8 = ⟨true, false, 0#6⟩ := by decide

/-- The padding flag is set at the padding symbol only (R24). -/
theorem rev_pad_iff {c : Byte} : (rev c).pad = true ↔ c = 0x3D#8 := by
  refine ⟨fun hpad => ?_, fun h => by rw [h, rev_padSymbol]⟩
  obtain ⟨-, h⟩ | ⟨h, -⟩ | ⟨-, h⟩ := rev_cases c
  · simp [h] at hpad
  · exact h
  · simp [h] at hpad

/-- A code that is neither valid nor padding has the entry of the invalid codes (R24). -/
theorem rev_eq_invalid {c : Byte} (hvalid : (rev c).valid = false) (hpad : (rev c).pad = false) :
    rev c = ⟨false, false, 0#6⟩ := by
  obtain ⟨h, -⟩ | ⟨-, h⟩ | ⟨-, h⟩ := rev_cases c
  · simp [h] at hvalid
  · simp [h] at hpad
  · exact h

/-! ## The inversion of `exec`: every command's effect, written once -/

/-- The data word of a command that reads no decoder register (R137). The other commands have no such word: 0. -/
def registerFreeData : Instr → Word
  | .enc1 b0 => encodeGroup 1 b0 0x00#8 0x00#8
  | .enc2 b0 b1 => encodeGroup 2 b0 b1 0x00#8
  | .enc3 b0 b1 b2 => encodeGroup 3 b0 b1 b2
  | .alph idx => (alphabet idx).setWidth 32
  | .rlut sym => rlutData (rev sym)
  | .dinit | .dsym _ | .dend | .stat => 0#32

/-- `CommandEffect s i u code data`: after a reset, the command `i` leaves the registers of `s` as in `u` and answers
`code` with `data`. One constructor for each way a command can complete. -/
inductive CommandEffect (s : State) : Instr → State → RspCode → Word → Prop
  | registerFree {i : Instr} (h : isRegisterFree i = true) : CommandEffect s i s .ok (registerFreeData i)
  | stat : CommandEffect s .stat s .ok (statusWord s)
  | dinit : CommandEffect s .dinit (clearDecoder s) .ok (statusWord s)
  | dend : CommandEffect s .dend (clearDecoder s) (if s.err then .invalidCharacter else .ok) (statusWord s)
  /-- The sticky error, or an invalid symbol (R104). -/
  | fail {sym : Byte} (h : s.err = true ∨ rev sym = ⟨false, false, 0#6⟩) :
      CommandEffect s (.dsym sym) { s with err := true } .invalidCharacter (statusBits { s with err := true } ++ 0x000#12)
  /-- An alphabet symbol, under `INV` (R106). -/
  | shift {sym : Byte} (herr : s.err = false) (hvalid : (rev sym).valid = true) (hinv : DecoderInv s) :
      CommandEffect s (.dsym sym) (shiftIn s (rev sym).idx) .ok
        (dsymData (statusBits (shiftIn s (rev sym).idx)) false (emitsByte s) (emittedByte s (rev sym).idx))
  /-- The padding symbol (R105). -/
  | skip (herr : s.err = false) :
      CommandEffect s (.dsym 0x3D#8) { s with padc := padcNext s } .ok
        (dsymData (statusBits { s with padc := padcNext s }) true false 0x00#8)

theorem exec_of_registerFree {i : Instr} {s : State} (h : isRegisterFree i = true) (hr : s.rstDone = true) :
    exec i s = .next (respond s .ok (registerFreeData i)) := by
  cases i with
  | dinit | dsym | dend | stat => exact absurd h Bool.false_ne_true
  | enc1 | enc2 | enc3 | alph | rlut => exact afterReset_of_rstDone hr

/-- A command completes in exactly these ways: the block has been reset, and one of the effects is the command's. -/
theorem exec_eq_next_iff {i : Instr} {s t : State} :
    exec i s = .next t ↔
      s.rstDone = true ∧ ∃ u code data, CommandEffect s i u code data ∧ t = respond u code data := by
  constructor
  · intro h
    have hr : s.rstDone = true := by
      by_contra hr
      rw [exec_of_not_rstDone i (by simpa using hr)] at h
      cases h
    refine ⟨hr, ?_⟩
    cases i with
    | enc1 | enc2 | enc3 | alph | rlut =>
      rw [exec_of_registerFree rfl hr] at h
      cases h
      exact ⟨_, _, _, .registerFree rfl, rfl⟩
    | dinit => exact ⟨_, _, _, .dinit, (answer_eq_next.mp (afterReset_eq_next.mp h).2).symm⟩
    | dend => exact ⟨_, _, _, .dend, (answer_eq_next.mp (afterReset_eq_next.mp h).2).symm⟩
    | stat => exact ⟨_, _, _, .stat, (answer_eq_next.mp (afterReset_eq_next.mp h).2).symm⟩
    | dsym sym =>
      obtain ⟨-, ⟨herr, h⟩ | ⟨herr, hvalid, h⟩ | ⟨herr, hvalid, hpad, h⟩ | ⟨herr, hvalid, hpad, h⟩⟩ := execDsym_cases h
      · exact ⟨_, _, _, .fail (.inl herr), (answer_eq_next.mp h).symm⟩
      · obtain ⟨hinv, rfl⟩ := presentSymbol_eq_next.mp h
        exact ⟨_, _, _, .shift herr hvalid hinv, rfl⟩
      · have ht := answer_eq_next.mp h
        obtain rfl : sym = 0x3D#8 := rev_pad_iff.mp hpad
        exact ⟨_, _, _, .skip herr, ht.symm⟩
      · exact ⟨_, _, _, .fail (.inr (rev_eq_invalid hvalid hpad)), (answer_eq_next.mp h).symm⟩
  · rintro ⟨hr, u, code, data, heffect, rfl⟩
    cases heffect with
    | registerFree h => exact exec_of_registerFree h hr
    | stat | dinit | dend => exact afterReset_of_rstDone hr
    | fail h =>
      refine (afterReset_of_rstDone hr).trans ?_
      rcases h with h | h <;> simp [h, raiseInvalidCharacter_eq]
    | shift herr hvalid hinv =>
      refine (afterReset_of_rstDone hr).trans ?_
      simpa [herr, hvalid, presentSymbol_eq_next] using hinv
    | skip herr =>
      refine (afterReset_of_rstDone hr).trans ?_
      simp [herr, rev_padSymbol, presentPad]

/-! ## The status word -/

@[simp] theorem statusBits_respond (s : State) (code : RspCode) (data : Word) :
    statusBits (respond s code data) = statusBits s := rfl

/-- `STATUS[31:12]` of the status word (R29). -/
theorem extractLsb'_statusWord (s : State) : (statusWord s).extractLsb' 12 20 = statusBits s := by
  apply BitVec.eq_of_getLsbD_eq
  intro k hk
  simp [getLsbD_statusWord, hk]

/-- The top 20 bits of a DSYM response are its status (R103). -/
theorem extractLsb'_dsymData (st : BitVec 20) (ps bv : Bool) (byte : Byte) :
    (dsymData st ps bv byte).extractLsb' 12 20 = st := by
  apply BitVec.eq_of_getLsbD_eq
  intro k hk
  rw [BitVec.getLsbD_extractLsb', getLsbD_dsymData, if_neg (by omega), if_neg (by omega), if_neg (by omega),
    if_neg (by omega)]
  simp [hk]

/-- The data word of a failing DSYM is a DSYM response with PS = 0, BV = 0 and BYTE = 0x00 (R103, R104). -/
theorem append_zeros_eq_dsymData (st : BitVec 20) : st ++ 0x000#12 = dsymData st false false 0x00#8 := by
  apply BitVec.eq_of_getLsbD_eq
  intro k hk
  rw [getLsbD_dsymData, BitVec.getLsbD_append]
  by_cases hlow : k < 12
  · simp [hlow]
  · simp [hlow, show ¬ k < 8 by omega, show k ≠ 8 by omega, show k ≠ 9 by omega]

/-- Every effect of DSYM answers with the status of the registers it leaves (R103). -/
theorem CommandEffect.dsym_data {s u : State} {sym : Byte} {code : RspCode} {data : Word}
    (h : CommandEffect s (.dsym sym) u code data) : data.extractLsb' 12 20 = statusBits u := by
  cases h with
  | registerFree h => exact absurd h Bool.false_ne_true
  | fail => rw [append_zeros_eq_dsymData, extractLsb'_dsymData]
  | shift | skip => exact extractLsb'_dsymData _ _ _ _

/-- Each field of STATUS at its place, and zeros below (R29). -/
theorem statusWord_fields (s : State) :
    (statusWord s).extractLsb' 31 1 = BitVec.ofBool s.err ∧ (statusWord s).extractLsb' 30 1 = BitVec.ofBool s.ipad ∧
    (statusWord s).extractLsb' 28 2 = s.padc ∧ (statusWord s).extractLsb' 24 4 = s.cnt ∧
    (statusWord s).extractLsb' 12 12 = s.acc ∧ (statusWord s).extractLsb' 0 12 = 0#12 := by
  refine ⟨?_, ?_, ?_, ?_, ?_, ?_⟩ <;> apply BitVec.eq_of_getLsbD_eq <;> intro k hk <;>
    rw [BitVec.getLsbD_extractLsb', getLsbD_statusWord, getLsbD_statusBits] <;> interval_cases k <;> simp

/-- Settles O17: the fields bit by bit, and the effects of STAT, DINIT, DEND and DSYM read off `CommandEffect`. -/
theorem statusWordFields : Obligations.StatusWordFields := by
  unfold Obligations.StatusWordFields
  refine ⟨statusWord_fields, ?_, ?_⟩
  · rintro s i hr (rfl | rfl | rfl)
    · exact ⟨_, _, exec_eq_next_iff.mpr ⟨hr, _, _, _, .stat, rfl⟩, rfl⟩
    · exact ⟨_, _, exec_eq_next_iff.mpr ⟨hr, _, _, _, .dinit, rfl⟩, rfl⟩
    · exact ⟨_, _, exec_eq_next_iff.mpr ⟨hr, _, _, _, .dend, rfl⟩, rfl⟩
  · intro s t sym h
    obtain ⟨-, u, code, data, heffect, rfl⟩ := exec_eq_next_iff.mp h
    have hresponses : u.responses = s.responses := by cases heffect <;> rfl
    refine ⟨⟨code, data⟩, by simp [hresponses], ?_⟩
    rw [extractLsb'_statusWord, statusBits_respond]
    exact heffect.dsym_data

/-! ## Who writes which register -/

/-- What no command writes: RST_DONE, the command in flight, the script, the free-value counter, and the responses
already out (R32, R67). -/
theorem CommandEffect.frame {s u : State} {i : Instr} {code : RspCode} {data : Word} (h : CommandEffect s i u code data) :
    u.rstDone = s.rstDone ∧ u.inFlight = s.inFlight ∧ u.script = s.script ∧ u.freeCount = s.freeCount ∧
      u.responses = s.responses := by
  cases h <;> exact ⟨rfl, rfl, rfl, rfl, rfl⟩

/-- The commands beside DSYM, DINIT and DEND are the register-free ones and STAT. -/
theorem isRegisterFree_or_eq_stat {i : Instr} (hdsym : ∀ sym, i ≠ .dsym sym) (hdinit : i ≠ .dinit) (hdend : i ≠ .dend) :
    isRegisterFree i = true ∨ i = .stat := by
  cases i with
  | dsym sym => exact absurd rfl (hdsym sym)
  | dinit => exact absurd rfl hdinit
  | dend => exact absurd rfl hdend
  | stat => exact .inr rfl
  | enc1 | enc2 | enc3 | alph | rlut => exact .inl rfl

/-- A register-free command or STAT leaves the whole state, but for its response, as it is (R27, R109). -/
theorem CommandEffect.eq_of_registerFree_or_stat {s u : State} {i : Instr} {code : RspCode} {data : Word}
    (h : CommandEffect s i u code data) (hi : isRegisterFree i = true ∨ i = .stat) : u = s := by
  cases h with
  | registerFree | stat => rfl
  | dinit | dend | fail | shift | skip => simp [isRegisterFree] at hi

/-- Settles O44, from the frame of every effect and the identity of the register-free ones. -/
theorem onlyDecoderCommandsWriteRegisters : Obligations.OnlyDecoderCommandsWriteRegisters := by
  unfold Obligations.OnlyDecoderCommandsWriteRegisters
  intro s t i h
  obtain ⟨-, u, code, data, heffect, rfl⟩ := exec_eq_next_iff.mp h
  obtain ⟨hrstDone, hinFlight, hscript, hfreeCount, hresponses⟩ := heffect.frame
  refine ⟨hrstDone, hinFlight, hscript, hfreeCount, ⟨⟨code, data⟩, by simp [hresponses]⟩, ?_⟩
  intro hdsym hdinit hdend
  rw [heffect.eq_of_registerFree_or_stat (isRegisterFree_or_eq_stat hdsym hdinit hdend)]
  exact ⟨rfl, rfl, rfl, rfl, rfl⟩

/-- The saturating count never falls (R105). -/
theorem padc_le_padcNext (s : State) : s.padc.toNat ≤ (padcNext s).toNat := by
  have := s.padc.isLt
  simp [padcNext]
  omega

/-- IPAD is set exactly when it was set or a padding symbol was counted before (R106). -/
theorem ipadNext_eq_true {s : State} : ipadNext s = true ↔ s.ipad = true ∨ s.padc ≠ 0#2 := by
  simp [ipadNext]

/-- Settles O45, by the command's effect: each flag moves in one constructor of DSYM, and falls in DINIT and DEND. -/
theorem flagsSetByDsymClearedByInitOrEnd : Obligations.FlagsSetByDsymClearedByInitOrEnd := by
  unfold Obligations.FlagsSetByDsymClearedByInitOrEnd
  intro s t i h
  obtain ⟨-, u, code, data, heffect, rfl⟩ := exec_eq_next_iff.mp h
  cases heffect with
  | registerFree | stat => simp_all
  | dinit => simp
  | dend => simp
  | fail hcause =>
    refine ⟨fun herr _ => ⟨_, rfl, ?_⟩, ?_⟩
    · exact hcause.resolve_left (by simp [herr])
    · simp_all
  | shift herr hvalid =>
    refine ⟨by simp [herr], fun hipad hset => ?_, by simp, ?_⟩
    · exact ⟨(ipadNext_eq_true.mp hset).resolve_left (by simp [hipad]), _, rfl, hvalid⟩
    · rintro (⟨h, -⟩ | ⟨h, hclear⟩ | h)
      · simp [herr] at h
      · simp [ipadNext, h] at hclear
      · simp at h
  | skip herr =>
    have := padc_le_padcNext s
    refine ⟨by simp [herr], by simp_all, fun _ => rfl, ?_⟩
    rintro (⟨h, -⟩ | ⟨h, hclear⟩ | h)
    · simp [herr] at h
    · simp [h] at hclear
    · exact absurd h (by simp; omega)

/-! ## Noninterference -/

/-- Settles O46: the response is `registerFreeData`, which names no state. -/
theorem encoderLearnsNothingOfDecoder : Obligations.EncoderLearnsNothingOfDecoder := by
  unfold Obligations.EncoderLearnsNothingOfDecoder
  intro i s acc cnt err ipad padc h hr
  exact ⟨⟨.ok, registerFreeData i⟩, exec_of_registerFree h hr, exec_of_registerFree h hr⟩

/-- No command's effect depends on the responses already out (log entry 2). -/
theorem CommandEffect.after_response {s u : State} {i : Instr} {code : RspCode} {data : Word} (h : CommandEffect s i u code data)
    (code' : RspCode) (data' : Word) : CommandEffect (respond s code' data') i (respond u code' data') code data := by
  cases h with
  | registerFree h => exact .registerFree h
  | stat => exact .stat
  | dinit => exact .dinit
  | dend => exact .dend
  | fail h => exact .fail h
  | shift herr hvalid hinv => exact .shift herr hvalid hinv
  | skip herr => exact .skip herr

/-- An ENC, ALPH, RLUT, STAT or illegal word does nothing but answer (R27, R152). -/
theorem performWord_eq_respond {w : Word} {s t : State}
    (hw : (∃ i, decode w = .ok i ∧ (isRegisterFree i = true ∨ i = .stat)) ∨ ∃ e, decode w = .error e)
    (h : performWord w s = .next t) : ∃ code data, t = respond s code data := by
  rcases hw with ⟨i, hdecode, hi⟩ | ⟨e, hdecode⟩
  · rw [performWord_ok hdecode] at h
    obtain ⟨-, u, code, data, heffect, rfl⟩ := exec_eq_next_iff.mp h
    obtain rfl : u = s := heffect.eq_of_registerFree_or_stat hi
    exact ⟨_, _, rfl⟩
  · rw [performWord_error hdecode] at h
    exact ⟨_, _, (answer_eq_next.mp (afterReset_eq_next.mp h).2).symm⟩

/-- Settles O47: the first word only appends a response, and no effect depends on the responses. -/
theorem interleavingChangesNothing : Obligations.InterleavingChangesNothing := by
  unfold Obligations.InterleavingChangesNothing
  intro w j s t u hw ht hu
  obtain ⟨code', data', rfl⟩ := performWord_eq_respond hw ht
  obtain ⟨hr, u, code, data, heffect, rfl⟩ := exec_eq_next_iff.mp hu
  obtain ⟨-, -, -, -, hresponses⟩ := heffect.frame
  exact ⟨_, ⟨code, data⟩, exec_eq_next_iff.mpr ⟨hr, _, _, _, heffect.after_response code' data', rfl⟩,
    by simp [hresponses], by simp [hresponses], rfl⟩

end Sys2Proof.Machine

/-! # The ROMs by code range, reset, and the accumulator against the source's -/

namespace Sys2Proof.Machine

/-! ## The contents of the ROMs -/

/-- REV inverts ALPHABET at every index (R25). -/
@[simp] theorem rev_alphabet (i : Index) : rev (alphabet i) = ⟨false, true, i⟩ := by revert i; decide

/-- ALPHABET inverts REV at every valid code (R25). -/
theorem alphabet_rev {c : Byte} : (rev c).valid = true → alphabet (rev c).idx = c := by revert c; decide

/-- The ROM is one to one, because REV gives the index back (R23). -/
theorem alphabet_injective : Function.Injective alphabet := by
  intro i j h
  simpa using congrArg (fun c => (rev c).idx) h

/-- The padding symbol is no entry, because REV calls every entry valid (R23). -/
theorem alphabet_ne_pad (i : Index) : alphabet i ≠ pad := by
  intro h
  have hvalid := congrArg (fun c => (rev c).valid) h
  simp [pad, rev_padSymbol] at hvalid

/-- The entries of ALPHABET by index range (R23). -/
theorem alphabet_ranges (i : Index) :
    (i.toNat ≤ 25 → (alphabet i).toNat = 0x41 + i.toNat) ∧
    (26 ≤ i.toNat ∧ i.toNat ≤ 51 → (alphabet i).toNat = 0x61 + (i.toNat - 26)) ∧
    (52 ≤ i.toNat ∧ i.toNat ≤ 61 → (alphabet i).toNat = 0x30 + (i.toNat - 52)) ∧
    (i.toNat = 62 → alphabet i = 0x2B#8) ∧ (i.toNat = 63 → alphabet i = 0x2F#8) := by
  revert i; decide

/-- Settles O14: the ranges by the table's entries, the rest because REV inverts ALPHABET. -/
theorem alphabetByCodeRange : Obligations.AlphabetByCodeRange := by
  unfold Obligations.AlphabetByCodeRange
  refine ⟨rfl, fun i => ?_, fun _ _ h => alphabet_injective h⟩
  obtain ⟨hupper, hlower, hdigit, hplus, hslash⟩ := alphabet_ranges i
  exact ⟨hupper, hlower, hdigit, hplus, hslash, alphabet_ne_pad i⟩

/-- Settles O15: in each range the earlier tests of `rev` fail and its own succeeds. -/
theorem reverseTableContents : Obligations.ReverseTableContents := by
  unfold Obligations.ReverseTableContents
  intro c
  refine ⟨fun h => ?_, fun h => ?_, fun h => ?_, ?_, ?_, ?_, fun h => ?_⟩
  · rw [rev, if_pos h, revSymbol]
  · rw [rev, if_neg (by omega), if_pos h, revSymbol]
  · rw [rev, if_neg (by omega), if_neg (by omega), if_pos h, revSymbol]
  · rintro rfl; decide
  · rintro rfl; decide
  · rintro rfl; decide
  · have hplus : c ≠ 0x2B#8 := by rintro rfl; simp at h
    have hslash : c ≠ 0x2F#8 := by rintro rfl; simp at h
    have hpad : c ≠ 0x3D#8 := by rintro rfl; simp at h
    rw [rev, if_neg (by omega), if_neg (by omega), if_neg (by omega), if_neg hplus, if_neg hslash, if_neg hpad]

/-- No code is both padding and valid (R25). -/
theorem not_rev_pad_and_valid (c : Byte) : ¬ ((rev c).pad = true ∧ (rev c).valid = true) := by
  rintro ⟨hpad, hvalid⟩
  rw [rev_pad_iff] at hpad
  simp [hpad, rev_padSymbol] at hvalid

/-- Settles O16: the two inverse laws, and the three counts over the 256 codes. -/
theorem reverseTableInvertsAlphabet : Obligations.ReverseTableInvertsAlphabet := by
  unfold Obligations.ReverseTableInvertsAlphabet
  exact ⟨rev_alphabet, fun _ => alphabet_rev, fun _ => rev_pad_iff, not_rev_pad_and_valid,
    rfl, rfl, rfl⟩

/-! ## Reset and power-up -/

theorem step_reset {s : State} {rest : List HostEvent} (h : s.script = .reset :: rest) :
    step s = .next (assertReset { s with script := rest }) := by
  simp [step, nextEvent, h]

/-- Settles O9: the step is `assertReset`, whose fields are those of R33. -/
theorem resetFromAnyState : Obligations.ResetFromAnyState := by
  unfold Obligations.ResetFromAnyState
  intro s rest h
  exact ⟨_, step_reset h, by simp⟩

/-- Settles O10: the fields of the reset state. -/
theorem resetStateValues : Obligations.ResetStateValues := by
  unfold Obligations.ResetStateValues
  decide

/-- Settles O39: after reset `INV` holds, with CNT = 0 and ACC = 0; at power-up the block has not been reset and no
command is in flight, so nothing is asked of the registers. -/
theorem resetAndPowerUpAreSafe : Obligations.ResetAndPowerUpAreSafe := by
  unfold Obligations.ResetAndPowerUpAreSafe
  refine ⟨by decide, fun h => ?_, fun h => ?_⟩
  · exact absurd h (by simp [powerUp])
  · exact absurd (losePower_inFlight _) h

/-! ## The commands the host issues -/

theorem encode_dsym_fields (sym : Byte) :
    opField (encode (.dsym sym)) = 0x3#4 ∧ symField (encode (.dsym sym)) = sym := by
  constructor <;> apply BitVec.eq_of_getLsbD_eq <;> intro k hk <;> interval_cases k <;> simp [opField, symField, encode]

/-- The assembler's word of DSYM decodes to it (R69). -/
theorem decode_encode_dsym (sym : Byte) : decode (encode (.dsym sym)) = .ok (.dsym sym) := by
  obtain ⟨hop, hsym⟩ := encode_dsym_fields sym
  simp [decode, hop, hsym]

/-- A command issued to a ready block is performed, and its response is the one the host takes (R8). -/
theorem issue_eq_some {i : Instr} {s u : State} {code : RspCode} {data : Word} (hdecode : decode (encode i) = .ok i)
    (hready : Ready s) (heffect : CommandEffect s i u code data) :
    issue i s = some (⟨code, data⟩, respond u code data) := by
  obtain ⟨hr, hinFlight⟩ := hready
  obtain ⟨-, -, -, -, hresponses⟩ := heffect.frame
  have hstep : step { s with script := .command (encode i) :: s.script } = .next (respond u code data) :=
    calc step { s with script := .command (encode i) :: s.script }
      _ = performWord (encode i) s := step_command rfl hinFlight
      _ = exec i s := performWord_ok hdecode s
      _ = .next (respond u code data) := exec_eq_next_iff.mpr ⟨hr, _, _, _, heffect, rfl⟩
  simp [issue, hstep, hresponses]

/-! ## The 12-bit accumulator against the source's unbounded one -/

/-- Under `INV` the counts run 0, 6, 4, 2, 0, and a byte is emitted from every count but 0 (R107). -/
theorem cntNext_toNat {s : State} (h : DecoderInv s) :
    (s.cnt.toNat = 0 ∧ emitsByte s = false ∧ (cntNext s).toNat = s.cnt.toNat + 6 ∨
      2 ≤ s.cnt.toNat ∧ emitsByte s = true ∧ (cntNext s).toNat = s.cnt.toNat + 6 - 8) ∧
    (cntNext s = 0#4 ∨ cntNext s = 2#4 ∨ cntNext s = 4#4 ∨ cntNext s = 6#4) := by
  obtain ⟨hc | hc | hc | hc, -⟩ := h <;> simp [cntNext, emitsByte, cntShifted, hc]

/-- The shifted accumulator is the source's, of which it keeps the buffered bits: six more than before (R106). -/
theorem accShifted_refines {s : State} {b : Nat} (hacc : s.acc.toNat = b % 2 ^ s.cnt.toNat) (idx : Index) :
    accShifted s idx = (b * 64 + idx.toNat) % 2 ^ cntShifted s := by
  have hidx := idx.isLt
  have hlow : (b * 64 + idx.toNat) % 2 ^ 6 = idx.toNat := by omega
  have hhigh : (b * 64 + idx.toNat) / 2 ^ 6 = b := by omega
  rw [cntShifted, pow_add, mul_comm (2 ^ _), Nat.mod_mul, hlow, hhigh, accShifted, hacc]
  omega

/-- ACC after a shift-in is the buffered bits of the source's accumulator again (R106). -/
theorem accNext_refines {s : State} {b : Nat} (hinv : DecoderInv s) (hacc : s.acc.toNat = b % 2 ^ s.cnt.toNat)
    (idx : Index) : (accNext s idx).toNat = (b * 64 + idx.toNat) % 2 ^ (cntNext s).toNat := by
  obtain ⟨hlt, hcnt⟩ := accShifted_lt hinv idx
  have hfits : accShifted s idx < 2 ^ 12 := hlt.trans_le (Nat.pow_le_pow_right (by decide) hcnt)
  rcases (cntNext_toNat hinv).1 with ⟨-, hemits, hnext⟩ | ⟨-, hemits, hnext⟩
  · rw [accNext, hemits, if_neg Bool.false_ne_true, BitVec.toNat_ofNat, Nat.mod_eq_of_lt hfits, hnext,
      accShifted_refines hacc idx, cntShifted]
  · rw [accNext, hemits, if_pos rfl, BitVec.toNat_ofNat, Nat.mod_eq_of_lt ((Nat.mod_le _ _).trans_lt hfits), hnext,
      accShifted_refines hacc idx, cntShifted, Nat.mod_mod_of_dvd _ (Nat.pow_dvd_pow 2 (Nat.sub_le _ _))]

/-- A shift-in keeps `INV`: ACC is a number modulo `2 ^ CNT` (R28). -/
theorem decoderInv_shiftIn {s : State} (hinv : DecoderInv s) (idx : Index) : DecoderInv (shiftIn s idx) := by
  refine ⟨(cntNext_toNat hinv).2, ?_⟩
  rw [shiftIn_acc, accNext_refines hinv (Nat.mod_eq_of_lt hinv.2).symm]
  exact Nat.mod_lt _ (Nat.two_pow_pos _)

/-- The eight bits above the low `m` are the same with or without the consumed bits above them. -/
theorem ofNat_mod_shiftRight (x m : Nat) : BitVec.ofNat 8 ((x % 2 ^ (m + 8)) >>> m) = BitVec.ofNat 8 (x >>> m) := by
  apply BitVec.eq_of_toNat_eq
  rw [Nat.shiftRight_eq_div_pow, Nat.shiftRight_eq_div_pow, pow_add, Nat.mod_mul_right_div_self]
  simp

/-- The bytes one alphabet symbol makes the block emit: one or none (R106). -/
def emittedBytes (s : State) (idx : Index) : List Byte := if emitsByte s then [emittedByte s idx] else []

/-- The source emits the same bytes for one index, and goes on with the count the block goes on with. -/
theorem sourceDecode_cons {s : State} {b : Nat} (hinv : DecoderInv s) (hacc : s.acc.toNat = b % 2 ^ s.cnt.toNat)
    (idx : Index) (idxs : List Index) :
    sourceDecode b s.cnt.toNat (idx :: idxs) =
      emittedBytes s idx ++ sourceDecode (b * 64 + idx.toNat) (cntNext s).toNat idxs := by
  rcases (cntNext_toNat hinv).1 with ⟨hcnt, hemits, hnext⟩ | ⟨hcnt, hemits, hnext⟩
  · rw [sourceDecode, if_neg (by omega), hnext, emittedBytes, hemits, if_neg Bool.false_ne_true, List.nil_append]
  · have hshifted : cntShifted s = s.cnt.toNat + 6 - 8 + 8 := by rw [cntShifted]; omega
    have hbyte : emittedByte s idx = BitVec.ofNat 8 ((b * 64 + idx.toNat) >>> (s.cnt.toNat + 6 - 8)) := by
      rw [emittedByte, if_pos hemits, accShifted_refines hacc idx, hshifted, Nat.add_sub_cancel, ofNat_mod_shiftRight]
    rw [sourceDecode, if_pos (by omega), hnext, emittedBytes, if_pos hemits, hbyte, List.singleton_append]

/-- The host reads BYTE out of a DSYM response exactly when BV = 1 (R103, R134). -/
theorem byteOf_dsymData (st : BitVec 20) (ps bv : Bool) (byte : Byte) :
    byteOf (dsymData st ps bv byte) = if bv then [byte] else [] := by
  have hbv : (dsymData st ps bv byte).getLsbD 8 = bv := by rw [getLsbD_dsymData]; rfl
  have hbyte : (dsymData st ps bv byte).extractLsb' 0 8 = byte := by
    apply BitVec.eq_of_getLsbD_eq
    intro k hk
    simp [getLsbD_dsymData, hk]
  rw [byteOf, hbv, hbyte]

/-- Presenting an alphabet symbol shifts its index in and collects the bytes it emits (R106, R134). -/
theorem presentText_cons_alphabet {s : State} (hready : Ready s) (hinv : DecoderInv s) (herr : s.err = false)
    (idx : Index) (cs : List Byte) :
    ∃ data, presentText (alphabet idx :: cs) s =
      (presentText cs (respond (shiftIn s idx) .ok data)).map fun p => (emittedBytes s idx ++ p.1, p.2) := by
  have heffect := CommandEffect.shift (sym := alphabet idx) herr (by simp) hinv
  rw [rev_alphabet] at heffect
  refine ⟨dsymData (statusBits (shiftIn s idx)) false (emitsByte s) (emittedByte s idx), ?_⟩
  rw [presentText, issue_eq_some (decode_encode_dsym _) hready heffect]
  simp [byteOf_dsymData, emittedBytes]

/-- Settles O37, by induction on the indices: each shift-in emits the source's byte and keeps ACC the buffered bits of
the source's accumulator. -/
theorem accumulatorRefinesSource : Obligations.AccumulatorRefinesSource := by
  unfold Obligations.AccumulatorRefinesSource
  intro idxs
  induction idxs with
  | nil => exact fun s b hready hinv herr hacc => ⟨s, rfl, hready, hinv, herr⟩
  | cons idx idxs ih =>
    intro s b hready hinv herr hacc
    obtain ⟨data, hpresent⟩ := presentText_cons_alphabet hready hinv herr idx (idxs.map alphabet)
    obtain ⟨t, ht, hafter⟩ := ih (respond (shiftIn s idx) .ok data) (b * 64 + idx.toNat) hready
      (decoderInv_shiftIn hinv idx) herr (accNext_refines hinv hacc idx)
    refine ⟨t, ?_, hafter⟩
    rw [List.map_cons, hpresent, ht, sourceDecode_cons hinv hacc]
    rfl

end Sys2Proof.Machine

/-! # The memory family: idempotent commands -/

namespace Sys2Proof.Machine

/-- A command other than DSYM, performed again on the registers it left, leaves them as they are; one that writes no
register answers the same again, while DINIT and DEND answer with the cleared status (R49). -/
theorem CommandEffect.again {s u : State} {i : Instr} {code : RspCode} {data : Word}
    (h : CommandEffect s i u code data) (hdsym : ∀ sym, i ≠ .dsym sym) :
    ∃ code' data', CommandEffect u i u code' data' ∧
      (isRegisterFree i = true ∨ i = .stat → code' = code ∧ data' = data) := by
  cases h with
  | registerFree hi => exact ⟨_, _, .registerFree hi, fun _ => ⟨rfl, rfl⟩⟩
  | stat => exact ⟨_, _, .stat, fun _ => ⟨rfl, rfl⟩⟩
  -- A cleared decoder, cleared again, is the same by computation.
  | dinit => exact ⟨_, _, .dinit, by simp [isRegisterFree]⟩
  | dend => exact ⟨_, _, .dend, by simp [isRegisterFree]⟩
  | fail | shift | skip => exact absurd rfl (hdsym _)

/-- Settles O48: the command's effect happens again on the registers it left, whatever response is out. -/
theorem idempotentCommands : Obligations.IdempotentCommands := by
  unfold Obligations.IdempotentCommands
  intro i s t hdsym h
  obtain ⟨hr, u, code, data, heffect, rfl⟩ := exec_eq_next_iff.mp h
  obtain ⟨hrstDone, -, -, -, hresponses⟩ := heffect.frame
  obtain ⟨code', data', hagain, hsame⟩ := heffect.again hdsym
  refine ⟨_, ⟨code, data⟩, ⟨code', data'⟩,
    exec_eq_next_iff.mpr ⟨hrstDone.trans hr, _, _, _, hagain.after_response code data, rfl⟩,
    by simp [hresponses], rfl, rfl, fun hi => ?_⟩
  obtain ⟨rfl, rfl⟩ := hsame hi
  obtain rfl : u = s := heffect.eq_of_registerFree_or_stat hi
  exact ⟨rfl, rfl⟩

end Sys2Proof.Machine

/-! # The encoding family: what a word decodes to, the opcode map, and the assembler -/

namespace Sys2Proof.Machine

/-! ## Words that agree under a mask -/

/-- The mask of the `n` bits from bit `start` up. -/
def fieldMask (start n : Nat) : Word := (BitVec.allOnes n).setWidth 32 <<< start

theorem getLsbD_fieldMask (start n k : Nat) :
    (fieldMask start n).getLsbD k = decide (k < 32 ∧ start ≤ k ∧ k < start + n) := by
  simp [fieldMask]
  grind

/-- Two words agree under a mask exactly when they have the same bits where the mask is set. -/
theorem and_eq_and_iff {w v m : Word} :
    w &&& m = v &&& m ↔ ∀ k, m.getLsbD k = true → w.getLsbD k = v.getLsbD k := by
  constructor
  · intro h k hm
    simpa [hm] using congrArg (·.getLsbD k) h
  · intro h
    apply BitVec.eq_of_getLsbD_eq
    intro k _
    rw [BitVec.getLsbD_and, BitVec.getLsbD_and]
    cases hm : m.getLsbD k with
    | false => simp
    | true => rw [h k hm]

/-- Two words agree under a field's mask exactly when they have the same field. -/
theorem and_fieldMask_eq_iff {w v : Word} {start n : Nat} (h : start + n ≤ 32) :
    w &&& fieldMask start n = v &&& fieldMask start n ↔ w.extractLsb' start n = v.extractLsb' start n := by
  rw [and_eq_and_iff]
  constructor
  · intro hbits
    apply BitVec.eq_of_getLsbD_eq
    intro k hk
    rw [BitVec.getLsbD_extractLsb', BitVec.getLsbD_extractLsb', hbits (start + k)]
    simp only [getLsbD_fieldMask, decide_eq_true_eq]
    omega
  · intro hfield k hk
    simp only [getLsbD_fieldMask, decide_eq_true_eq] at hk
    obtain ⟨j, rfl⟩ := Nat.exists_eq_add_of_le hk.2.1
    simpa [show j < n by omega] using congrArg (·.getLsbD j) hfield

/-- Two words agree under the union of two masks exactly when they agree under both. -/
theorem and_or_eq_iff {w v m m' : Word} :
    w &&& (m ||| m') = v &&& (m ||| m') ↔ w &&& m = v &&& m ∧ w &&& m' = v &&& m' := by
  simp only [and_eq_and_iff, BitVec.getLsbD_or, Bool.or_eq_true, or_imp, forall_and]

/-! ## The fields of a command -/

/-- The fields of `w` select the command, and its operands are the fields of its format (R62, R65). -/
def FieldsOf (w : Word) : Instr → Prop
  | .enc1 b0 => opField w = 0x1#4 ∧ nField w = 0b01#2 ∧ b0Field w = b0
  | .enc2 b0 b1 => opField w = 0x1#4 ∧ nField w = 0b10#2 ∧ b0Field w = b0 ∧ b1Field w = b1
  | .enc3 b0 b1 b2 => opField w = 0x1#4 ∧ nField w = 0b11#2 ∧ b0Field w = b0 ∧ b1Field w = b1 ∧ b2Field w = b2
  | .dinit => opField w = 0x2#4
  | .dsym sym => opField w = 0x3#4 ∧ symField w = sym
  | .dend => opField w = 0x4#4
  | .stat => opField w = 0x5#4
  | .alph idx => opField w = 0x6#4 ∧ idxField w = idx
  | .rlut sym => opField w = 0x7#4 ∧ symField w = sym

/-- A word decodes to a command exactly when its fields are the command's: on the branch where the decoder answers, its
tests are the selecting fields, and the fields of different commands exclude each other. -/
theorem decode_eq_ok_iff {w : Word} {i : Instr} : decode w = .ok i ↔ FieldsOf w i := by
  constructor
  · intro h
    unfold decode decodeGroup at h
    split_ifs at h <;> cases h <;> simp_all [FieldsOf]
  · intro h
    cases i <;> simp_all [FieldsOf, decode, decodeGroup]

/-- The bits a command reads: `OP`, `N` where its format has it, and its operands (R62). -/
theorem readMask_eq_fieldMasks (i : Instr) :
    readMask i = match i with
      | .enc1 _ => fieldMask 28 4 ||| fieldMask 24 2 ||| fieldMask 16 8
      | .enc2 _ _ => fieldMask 28 4 ||| fieldMask 24 2 ||| fieldMask 16 8 ||| fieldMask 8 8
      | .enc3 _ _ _ => fieldMask 28 4 ||| fieldMask 24 2 ||| fieldMask 16 8 ||| fieldMask 8 8 ||| fieldMask 0 8
      | .dinit | .dend | .stat => fieldMask 28 4
      | .dsym _ | .rlut _ => fieldMask 28 4 ||| fieldMask 0 8
      | .alph _ => fieldMask 28 4 ||| fieldMask 0 6 := by
  cases i <;> rfl

/-- Beside a word that has a command's fields, the words that have them are those that agree with it on the bits the
command reads (R63). -/
theorem fieldsOf_iff_and_readMask {w v : Word} {i : Instr} (h : FieldsOf v i) :
    FieldsOf w i ↔ w &&& readMask i = v &&& readMask i := by
  rw [readMask_eq_fieldMasks]
  cases i <;>
    simp_all [FieldsOf, opField, nField, b0Field, b1Field, b2Field, symField, idxField, and_or_eq_iff,
      and_fieldMask_eq_iff, and_assoc]

/-! ## The fields of the assembler's word -/

/-- An operand placed at a field is that field. -/
theorem extractLsb'_placed {n start : Nat} (x : BitVec n) (h : start + n ≤ 32) :
    (x.setWidth 32 <<< start).extractLsb' start n = x := by
  apply BitVec.eq_of_getLsbD_eq
  intro k hk
  simp [hk, show start + k < 32 by omega]

/-- An operand placed at `p` is 0 in every field it does not overlap. -/
theorem extractLsb'_placed_of_disjoint {n p start len : Nat} (x : BitVec n) (h : start + len ≤ p ∨ p + n ≤ start) :
    (x.setWidth 32 <<< p).extractLsb' start len = 0#len := by
  apply BitVec.eq_of_getLsbD_eq
  intro k hk
  rw [BitVec.getLsbD_extractLsb', BitVec.getLsbD_shiftLeft, BitVec.getLsbD_setWidth]
  by_cases hp : start + k < p
  · simp [hp]
  · simp [BitVec.getLsbD_of_ge x (start + k - p) (by omega)]

theorem extractLsb'_setWidth_self {n : Nat} (x : BitVec n) (h : n ≤ 32) : (x.setWidth 32).extractLsb' 0 n = x := by
  simpa using extractLsb'_placed (start := 0) x (by omega)

theorem extractLsb'_setWidth_of_le {n start len : Nat} (x : BitVec n) (h : n ≤ start) :
    (x.setWidth 32).extractLsb' start len = 0#len := by
  simpa using extractLsb'_placed_of_disjoint (p := 0) (len := len) x (by omega)

/-- The assembler's word has its command's fields (R69). -/
theorem fieldsOf_encode (i : Instr) : FieldsOf (encode i) i := by
  cases i <;>
    simp [FieldsOf, encode, opField, nField, b0Field, b1Field, b2Field, symField, idxField, BitVec.extractLsb'_or,
      extractLsb'_placed, extractLsb'_placed_of_disjoint, extractLsb'_setWidth_self, extractLsb'_setWidth_of_le]

/-- Decode inverts encode (R69). -/
theorem decode_encode (i : Instr) : decode (encode i) = .ok i := decode_eq_ok_iff.mpr (fieldsOf_encode i)

/-- The laws of `EncodeMatches`, gathered over the commands. -/
theorem encodeMatches (i : Instr) : Laws.EncodeMatches.Statement i := by
  cases i with
  | enc1 b0 => exact Laws.EncodeMatches.enc1 b0
  | enc2 b0 b1 => exact Laws.EncodeMatches.enc2 b0 b1
  | enc3 b0 b1 b2 => exact Laws.EncodeMatches.enc3 b0 b1 b2
  | dinit => exact Laws.EncodeMatches.dinit
  | dsym sym => exact Laws.EncodeMatches.dsym sym
  | dend => exact Laws.EncodeMatches.dend
  | stat => exact Laws.EncodeMatches.stat
  | alph idx => exact Laws.EncodeMatches.alph idx
  | rlut sym => exact Laws.EncodeMatches.rlut sym

theorem encode_and_maskWord (i : Instr) : encode i &&& maskWord i = matchWord i := (encodeMatches i).1

theorem encode_and_readMask (i : Instr) : encode i &&& readMask i = encode i := (encodeMatches i).2

/-- The words of a command are those that agree with its encoding on the bits it reads (R63). -/
theorem decode_eq_ok_iff_and_readMask {w : Word} {i : Instr} :
    decode w = .ok i ↔ w &&& readMask i = encode i := by
  rw [decode_eq_ok_iff, fieldsOf_iff_and_readMask (fieldsOf_encode i), encode_and_readMask]

/-- Settles O2: the encoding has the command's fields, and the words with these fields are those that agree with it on
the bits read. -/
theorem decodeEncodeRoundTrip : Obligations.DecodeEncodeRoundTrip := by
  unfold Obligations.DecodeEncodeRoundTrip
  exact fun i => ⟨decode_encode i, fun _ => decode_eq_ok_iff_and_readMask⟩

/-! ## Ignored bits -/

/-- A word with the same bits read is the same command, so it performs the same (R63). -/
theorem decode_and_performWord_of_and_readMask {i : Instr} {w w' : Word} (s : State) (h : decode w = .ok i)
    (hagree : w' &&& readMask i = w &&& readMask i) : decode w' = .ok i ∧ performWord w' s = performWord w s := by
  have h' : decode w' = .ok i :=
    decode_eq_ok_iff_and_readMask.mpr (hagree.trans (decode_eq_ok_iff_and_readMask.mp h))
  exact ⟨h', by rw [performWord_ok h', performWord_ok h]⟩

/-- The lanes that a short group does not use are zero bits (R63, R82). -/
theorem encodeGroup_unused_lanes (b0 b1 b2 : Byte) : encodeGroup 1 b0 b1 b2 = encodeGroup 1 b0 0x00#8 0x00#8 ∧
    encodeGroup 2 b0 b1 b2 = encodeGroup 2 b0 b1 0x00#8 := by
  have hone : groupValue 1 b0 b1 b2 = groupValue 1 b0 0x00#8 0x00#8 := rfl
  have htwo : groupValue 2 b0 b1 b2 = groupValue 2 b0 b1 0x00#8 := rfl
  simp only [encodeGroup, hone, htwo, and_self]

theorem encode_and_not_readMask (i : Instr) : encode i &&& ~~~ readMask i = 0#32 := by
  rw [← encode_and_readMask i, BitVec.and_assoc]
  simp

/-- Settles O3: a command's words share the bits it reads, its unused lanes are zero fill, and its encoding has no
ignored bit set. -/
theorem ignoredBitsHaveNoEffect : Obligations.IgnoredBitsHaveNoEffect := by
  unfold Obligations.IgnoredBitsHaveNoEffect
  refine ⟨fun _ _ _ s => decode_and_performWord_of_and_readMask s, encodeGroup_unused_lanes, encode_and_not_readMask,
    fun _ _ _ _ _ => ?_⟩
  simp only [readMask]
  decide

/-! ## The opcode map -/

/-- The mask of the commands beside ENC covers `OP` (R65). -/
theorem and_opMask_eq_iff {w v : Word} (hv : v &&& 0xF0000000#32 = v) :
    w &&& 0xF0000000#32 = v ↔ opField w = opField v := by
  have hmask : 0xF0000000#32 = fieldMask 28 4 := by decide
  calc w &&& 0xF0000000#32 = v
    _ ↔ w &&& 0xF0000000#32 = v &&& 0xF0000000#32 := by rw [hv]
    _ ↔ opField w = opField v := by rw [hmask, and_fieldMask_eq_iff (by decide)]; rfl

/-- Two words agree under the mask of ENC exactly when they have the same `OP` and `N` (R65). -/
theorem and_groupMask_eq_and_iff {w v : Word} :
    w &&& 0xF3000000#32 = v &&& 0xF3000000#32 ↔ opField w = opField v ∧ nField w = nField v := by
  have hmask : 0xF3000000#32 = fieldMask 28 4 ||| fieldMask 24 2 := by decide
  rw [hmask, and_or_eq_iff, and_fieldMask_eq_iff (by decide), and_fieldMask_eq_iff (by decide)]
  rfl

/-- The mask of ENC covers `OP` and `N` (R65). -/
theorem and_groupMask_eq_iff {w v : Word} (hv : v &&& 0xF3000000#32 = v) :
    w &&& 0xF3000000#32 = v ↔ opField w = opField v ∧ nField w = nField v := by
  rw [← and_groupMask_eq_and_iff, hv]

/-- A command's mask is part of the bits it reads (R65). -/
theorem readMask_and_maskWord (i : Instr) : readMask i &&& maskWord i = maskWord i := by
  cases i <;> simp only [readMask, maskWord] <;> decide

/-- A word that decodes to a command is in the command's row (R65). -/
theorem and_maskWord_of_fieldsOf {w : Word} {i : Instr} (h : FieldsOf w i) : w &&& maskWord i = matchWord i :=
  calc w &&& maskWord i
    _ = (w &&& readMask i) &&& maskWord i := by rw [BitVec.and_assoc, readMask_and_maskWord]
    _ = (encode i &&& readMask i) &&& maskWord i := by rw [(fieldsOf_iff_and_readMask (fieldsOf_encode i)).mp h]
    _ = matchWord i := by rw [encode_and_readMask, encode_and_maskWord]

/-- `OP` and `N` of an illegal word (R66). -/
abbrev IllegalHeader (op : BitVec 4) (n : BitVec 2) : Prop :=
  op = 0x0#4 ∨ 0x8 ≤ op.toNat ∨ (op = 0x1#4 ∧ n = 0b00#2)

theorem isIllegalWord_iff {w : Word} : isIllegalWord w ↔ IllegalHeader (opField w) (nField w) := Iff.rfl

/-- The other words have the header of one of the nine rows (R65). -/
theorem header_of_not_illegalHeader {op : BitVec 4} {n : BitVec 2} : ¬ IllegalHeader op n →
    (op = 0x1#4 ∧ n = 0b01#2) ∨ (op = 0x1#4 ∧ n = 0b10#2) ∨ (op = 0x1#4 ∧ n = 0b11#2) ∨ op = 0x2#4 ∨ op = 0x3#4 ∨
      op = 0x4#4 ∨ op = 0x5#4 ∨ op = 0x6#4 ∨ op = 0x7#4 := by
  revert op n; decide

/-- Every word that is not illegal has the fields of a command (R66). -/
theorem exists_fieldsOf_of_not_illegal {w : Word} (h : ¬ isIllegalWord w) : ∃ i, FieldsOf w i := by
  rw [isIllegalWord_iff] at h
  obtain ⟨hop, hn⟩ | ⟨hop, hn⟩ | ⟨hop, hn⟩ | hop | hop | hop | hop | hop | hop := header_of_not_illegalHeader h
  · exact ⟨.enc1 _, hop, hn, rfl⟩
  · exact ⟨.enc2 _ _, hop, hn, rfl, rfl⟩
  · exact ⟨.enc3 _ _ _, hop, hn, rfl, rfl, rfl⟩
  · exact ⟨.dinit, hop⟩
  · exact ⟨.dsym _, hop, rfl⟩
  · exact ⟨.dend, hop⟩
  · exact ⟨.stat, hop⟩
  · exact ⟨.alph _, hop, rfl⟩
  · exact ⟨.rlut _, hop, rfl⟩

/-- An illegal word has the fields of no command (R66). -/
theorem not_fieldsOf_of_illegal {w : Word} (h : isIllegalWord w) (i : Instr) : ¬ FieldsOf w i := by
  rw [isIllegalWord_iff, IllegalHeader] at h
  intro hfields
  cases i <;> simp_all [FieldsOf]

/-- The decoder rejects exactly the illegal words (R66). -/
theorem decode_eq_error_iff {w : Word} : (∃ e, decode w = .error e) ↔ isIllegalWord w := by
  constructor
  · rintro ⟨e, herror⟩
    by_contra hlegal
    obtain ⟨i, hi⟩ := exists_fieldsOf_of_not_illegal hlegal
    simp [decode_eq_ok_iff.mpr hi] at herror
  · intro hillegal
    cases h : decode w with
    | error e => exact ⟨e, rfl⟩
    | ok i => exact absurd (decode_eq_ok_iff.mp h) (not_fieldsOf_of_illegal hillegal i)

/-- Settles O4: a row's match under its mask fixes `OP`, and `N` for ENC, which select the command. -/
theorem opcodeMapRows : Obligations.OpcodeMapRows := by
  unfold Obligations.OpcodeMapRows
  intro w
  simp only [decode_eq_ok_iff]
  refine ⟨fun h => ?_, fun h => ?_, fun h => ?_, fun h => ?_, fun h => ?_, fun h => ?_, fun h => ?_, fun h => ?_,
    fun h => ?_, fun _ => and_maskWord_of_fieldsOf, decode_eq_error_iff.mpr⟩
  · obtain ⟨hop, hn⟩ := (and_groupMask_eq_iff rfl).mp h
    exact ⟨hop, hn, rfl⟩
  · obtain ⟨hop, hn⟩ := (and_groupMask_eq_iff rfl).mp h
    exact ⟨hop, hn, rfl, rfl⟩
  · obtain ⟨hop, hn⟩ := (and_groupMask_eq_iff rfl).mp h
    exact ⟨hop, hn, rfl, rfl, rfl⟩
  · exact (and_opMask_eq_iff rfl).mp h
  · exact ⟨(and_opMask_eq_iff rfl).mp h, rfl⟩
  · exact (and_opMask_eq_iff rfl).mp h
  · exact (and_opMask_eq_iff rfl).mp h
  · exact ⟨(and_opMask_eq_iff rfl).mp h, rfl⟩
  · exact ⟨(and_opMask_eq_iff rfl).mp h, rfl⟩

/-! ## The rows a word is in -/

/-- The rows of the opcode map that a word is in (R65). -/
def rowsOf (w : Word) : List (Word × Word) := opcodeRows.filter fun row => w &&& row.2 = row.1

/-- A word's `OP` and `N` decide which rows it is in: every mask lies within that of ENC. -/
theorem rowsOf_congr {w v : Word} (hop : opField w = opField v) (hn : nField w = nField v) : rowsOf w = rowsOf v := by
  refine List.filter_congr fun row hrow => ?_
  have hmask : 0xF3000000#32 &&& row.2 = row.2 := by fin_cases hrow <;> decide
  rw [← hmask, ← BitVec.and_assoc, ← BitVec.and_assoc, and_groupMask_eq_and_iff.mpr ⟨hop, hn⟩]

/-- A word with nothing but `OP` and `N`. -/
def headerWord (op : BitVec 4) (n : BitVec 2) : Word := op.setWidth 32 <<< 28 ||| n.setWidth 32 <<< 24

theorem opField_headerWord (op : BitVec 4) (n : BitVec 2) : opField (headerWord op n) = op := by
  simp [opField, headerWord, BitVec.extractLsb'_or, extractLsb'_placed, extractLsb'_placed_of_disjoint]

theorem nField_headerWord (op : BitVec 4) (n : BitVec 2) : nField (headerWord op n) = n := by
  simp [nField, headerWord, BitVec.extractLsb'_or, extractLsb'_placed, extractLsb'_placed_of_disjoint]

/-- Of the 64 headers, each illegal one is in no row and every other in exactly one (R65, R66). -/
theorem length_rowsOf_headerWord (op : BitVec 4) (n : BitVec 2) :
    (rowsOf (headerWord op n)).length = if IllegalHeader op n then 0 else 1 := by
  revert op n; decide

/-- An illegal word is in no row, and every other word in exactly one (R66). -/
theorem length_rowsOf (w : Word) : (rowsOf w).length = if isIllegalWord w then 0 else 1 := by
  rw [rowsOf_congr (opField_headerWord _ _).symm (nField_headerWord _ _).symm, length_rowsOf_headerWord]
  rfl

/-- Settles O5: the decoder rejects the illegal words, which are in no row, and such a word raises IllegalCommand. -/
theorem illegalWordsExactly : Obligations.IllegalWordsExactly := by
  unfold Obligations.IllegalWordsExactly
  intro w
  refine ⟨decode_eq_error_iff, fun hlegal => ?_, fun hillegal => ?_, fun hillegal s hr => ?_⟩
  · exact (length_rowsOf w).trans (if_neg hlegal)
  · exact List.eq_nil_of_length_eq_zero ((length_rowsOf w).trans (if_pos hillegal))
  · obtain ⟨e, herror⟩ := decode_eq_error_iff.mpr hillegal
    rw [performWord_error herror, raiseIllegalCommand_of_rstDone hr]

/-- Settles O1: the decoder evaluated on each word. -/
theorem specWordsDecode : Obligations.SpecWordsDecode := by
  unfold Obligations.SpecWordsDecode
  decide

/-- Settles O42: the bits of each code. -/
theorem reservedCodeNeverProduced : Obligations.ReservedCodeNeverProduced := by
  unfold Obligations.ReservedCodeNeverProduced
  refine ⟨rfl, rfl, rfl, fun c => ?_⟩
  cases c <;> decide

/-! ## The assembler -/

theorem assemble_eq_some_iff {l : AsmLine} {ws : List Word} :
    assemble l = some ws ↔ l.wellFormed = true ∧ expandLine l = ws := by
  unfold assemble
  cases l.wellFormed <;> simp

theorem assemble_eq_none_iff {l : AsmLine} : assemble l = none ↔ l.wellFormed = false := by
  unfold assemble
  cases l.wellFormed <;> simp

/-- Two lines that are checked alike and have the same words are assembled alike. -/
theorem assemble_congr {l l' : AsmLine} (hwf : l.wellFormed = l'.wellFormed) (hwords : expandLine l = expandLine l') :
    assemble l = assemble l' := by
  rw [assemble, assemble, hwf, hwords]

theorem ofNat_shiftLeft (n k : Nat) : BitVec.ofNat 32 (n <<< k) = BitVec.ofNat 32 n <<< k := by
  apply BitVec.eq_of_toNat_eq
  simp [Nat.shiftLeft_eq]

/-- Settles O58: an operand in range passes its check and is the same number in the word; one out of range fails it. -/
theorem assemblerForms : Obligations.AssemblerForms := by
  unfold Obligations.AssemblerForms
  simp only [assemble_eq_some_iff, assemble_eq_none_iff, AsmLine.wellFormed, byteOperandOk, indexOperandOk, expandLine,
    groupWords, encode, BitVec.ofNat_or, ofNat_shiftLeft, decide_eq_true_eq, decide_eq_false_iff_not, Nat.not_lt]
  refine ⟨fun b0 h0 => ?_, fun b0 h0 b1 h1 => ?_, fun b0 h0 b1 h1 b2 h2 => ?_, by simp, by simp, by simp,
    fun s hs => ?_, fun i hi => ?_, fun s hs => ?_, fun w hw => ⟨hw, trivial⟩, fun n hn => ⟨hn, hn, hn⟩, fun n hn => hn,
    fun n hn => hn, fun b0 b1 b2 h => ?_, fun b0 b1 b2 h => ?_⟩
  · simp [h0]
  · simp [h0, h1]
  · simp [h0, h1, h2]
  · simp [hs]
  · simp [hi]
  · simp [hs]
  · simp; omega
  · simp; omega

/-- A block of three bytes is one ENC.3 before the commands of the rest (R70). -/
theorem assemble_encs_cons {b0 b1 b2 : Nat} (h0 : b0 < 256) (h1 : b1 < 256) (h2 : b2 < 256) {rest : List Nat}
    {ws : List Word} (h : assemble (.encs rest) = some ws) :
    assemble (.encs (b0 :: b1 :: b2 :: rest)) =
      some (encode (.enc3 (BitVec.ofNat 8 b0) (BitVec.ofNat 8 b1) (BitVec.ofNat 8 b2)) :: ws) := by
  rw [assemble_eq_some_iff] at h ⊢
  obtain ⟨hrest, rfl⟩ := h
  have hrest : rest.all byteOperandOk = true := hrest
  exact ⟨by simp [AsmLine.wellFormed, byteOperandOk, h0, h1, h2, ← hrest], rfl⟩

/-- Settles O59: each pseudo-instruction has the check and the words of the commands it stands for. -/
theorem pseudoInstructions : Obligations.PseudoInstructions := by
  unfold Obligations.PseudoInstructions
  refine ⟨fun b0 b1 b2 => ⟨?_, ?_, ?_⟩, rfl, fun b0 _ => ?_, fun b0 _ b1 _ => ?_,
    fun b0 h0 b1 h1 b2 h2 rest ws => assemble_encs_cons h0 h1 h2, fun text => ⟨rfl, rfl⟩⟩
  · exact assemble_congr (by simp [AsmLine.wellFormed]) rfl
  · exact assemble_congr (by simp [AsmLine.wellFormed]) rfl
  · exact assemble_congr (by simp [AsmLine.wellFormed, Bool.and_assoc]) rfl
  · exact assemble_congr (by simp [AsmLine.wellFormed]) rfl
  · exact assemble_congr (by simp [AsmLine.wellFormed]) rfl

end Sys2Proof.Machine

/-! # The encoder family: the data path by bits, and what ENC.1, ENC.2, ENC.3 and ALPH answer -/

namespace Sys2Proof.Machine

/-! ## The group value and its indices -/

/-- The value of a short group is that of the full group whose missing bytes are 0x00 (R82). -/
theorem groupValue_eq_full (n : Nat) (b0 b1 b2 : Byte) :
    groupValue n b0 b1 b2 = groupValue 3 b0 (if 2 ≤ n then b1 else 0x00#8) (if n = 3 then b2 else 0x00#8) := rfl

theorem groupIndex_eq_extractLsb' (v : BitVec 24) (k : Nat) : groupIndex v k = v.extractLsb' (18 - 6 * k) 6 := by
  apply BitVec.eq_of_getLsbD_eq
  intro j hj
  simp [groupIndex, hj]

/-- Each bit of the value of a full group, `B0` most significant (R82). -/
theorem getLsbD_groupValue_full (b0 b1 b2 : Byte) (k : Nat) : (groupValue 3 b0 b1 b2).getLsbD k =
    if k < 8 then b2.getLsbD k else if k < 16 then b1.getLsbD (k - 8) else b0.getLsbD (k - 16) :=
  getLsbD_cat24 b0 b1 b2 k

/-- The bits of a short group's value below its bytes are zero fill (R82). -/
theorem getLsbD_groupValue_zeroFill {n k : Nat} (b0 b1 b2 : Byte) (hn : n = 1 ∨ n = 2 ∨ n = 3) (hk : k < 8 * (3 - n)) :
    (groupValue n b0 b1 b2).getLsbD k = false := by
  rw [groupValue_eq_full, getLsbD_groupValue_full]
  rcases hn with rfl | rfl | rfl
  · simp [hk]
  · simp [show k < 8 by omega]
  · omega

/-- Each bit of an index made of two bits of one byte and four of the next. -/
theorem getLsbD_append_two_four (x : BitVec 2) (y : BitVec 4) (k : Nat) :
    BitVec.getLsbD (w := 6) (x ++ y) k = if k < 4 then y.getLsbD k else x.getLsbD (k - 4) := BitVec.getLsbD_append

/-- Each bit of an index made of four bits of one byte and two of the next. -/
theorem getLsbD_append_four_two (x : BitVec 4) (y : BitVec 2) (k : Nat) :
    BitVec.getLsbD (w := 6) (x ++ y) k = if k < 2 then y.getLsbD k else x.getLsbD (k - 2) := BitVec.getLsbD_append

/-- The four indices of a full group, by the bits of its bytes (R82). -/
theorem groupIndex_full (b0 b1 b2 : Byte) :
    groupIndex (groupValue 3 b0 b1 b2) 0 = b0.extractLsb' 2 6 ∧
    groupIndex (groupValue 3 b0 b1 b2) 1 = b0.extractLsb' 0 2 ++ b1.extractLsb' 4 4 ∧
    groupIndex (groupValue 3 b0 b1 b2) 2 = b1.extractLsb' 0 4 ++ b2.extractLsb' 6 2 ∧
    groupIndex (groupValue 3 b0 b1 b2) 3 = b2.extractLsb' 0 6 := by
  refine ⟨?_, ?_, ?_, ?_⟩ <;> apply BitVec.eq_of_getLsbD_eq <;> intro j hj <;>
    simp only [groupIndex_eq_extractLsb', BitVec.getLsbD_extractLsb', getLsbD_groupValue_full, getLsbD_append_two_four,
      getLsbD_append_four_two] <;>
    interval_cases j <;> simp

/-- Settles O18: a short group's value is that of a full group with zero bytes, whose indices are read off bit by bit. -/
theorem groupIndicesByBits : Obligations.GroupIndicesByBits := by
  unfold Obligations.GroupIndicesByBits
  intro n b0 b1 b2 _
  exact ⟨rfl, groupIndex_eq_extractLsb' _ 0, groupIndex_eq_extractLsb' _ 1, groupIndex_eq_extractLsb' _ 2,
    groupIndex_eq_extractLsb' _ 3, groupIndex_full b0 _ _⟩

/-! ## The padding formatter -/

theorem groupSymbol_of_lt {n k : Nat} (v : BitVec 24) (h : k < 4 - (3 - n)) :
    groupSymbol n v k = alphabet (groupIndex v k) := if_neg (by omega)

theorem groupSymbol_of_le {n k : Nat} (v : BitVec 24) (h : 4 - (3 - n) ≤ k) : groupSymbol n v k = pad := if_pos h

/-- An index that padding replaces lies within the zero fill (R84). -/
theorem groupIndex_eq_zero_of_padded {n k : Nat} (b0 b1 b2 : Byte) (hn : n = 1 ∨ n = 2 ∨ n = 3) (hk : k < 4)
    (h : 4 - (3 - n) ≤ k) : groupIndex (groupValue n b0 b1 b2) k = 0#6 := by
  apply BitVec.eq_of_getLsbD_eq
  intro j hj
  rw [groupIndex_eq_extractLsb', BitVec.getLsbD_extractLsb', getLsbD_groupValue_zeroFill _ _ _ hn (by omega)]
  simp

/-- Settles O19: the formatter's two branches, and the replaced index within the zero fill. -/
theorem paddingReplacesZeroFill : Obligations.PaddingReplacesZeroFill := by
  unfold Obligations.PaddingReplacesZeroFill
  intro n k b0 b1 b2 hn hk
  exact ⟨groupSymbol_of_lt _, fun h => ⟨groupSymbol_of_le _ h, groupIndex_eq_zero_of_padded b0 b1 b2 hn hk h⟩⟩

/-! ## The data word of a group -/

/-- The four lanes of a group's data word are the formatter's symbols (R81). -/
theorem symbolsOf_encodeGroup (n : Nat) (b0 b1 b2 : Byte) :
    symbolsOf (encodeGroup n b0 b1 b2) = (List.range 4).map (groupSymbol n (groupValue n b0 b1 b2)) :=
  symbolsOf_packSymbols _ _ _ _

/-- The data word of a full group, by the bits of its bytes (R85). -/
theorem encodeGroup_three (b0 b1 b2 : Byte) : encodeGroup 3 b0 b1 b2 =
    packSymbols (alphabet (b0.extractLsb' 2 6)) (alphabet (b0.extractLsb' 0 2 ++ b1.extractLsb' 4 4))
      (alphabet (b1.extractLsb' 0 4 ++ b2.extractLsb' 6 2)) (alphabet (b2.extractLsb' 0 6)) := by
  obtain ⟨h0, h1, h2, h3⟩ := groupIndex_full b0 b1 b2
  simp [encodeGroup, groupSymbol, h0, h1, h2, h3]

/-- The data word of a group of two bytes: one padding symbol, and a third index with two zero bits (R86). -/
theorem encodeGroup_two (b0 b1 b2 : Byte) : encodeGroup 2 b0 b1 b2 =
    packSymbols (alphabet (b0.extractLsb' 2 6)) (alphabet (b0.extractLsb' 0 2 ++ b1.extractLsb' 4 4))
      (alphabet (b1.extractLsb' 0 4 ++ 0b00#2)) pad := by
  obtain ⟨h0, h1, h2, -⟩ := groupIndex_full b0 b1 0x00#8
  simp [encodeGroup, groupSymbol, groupValue_eq_full 2, h0, h1, h2]

/-- The data word of a group of one byte: two padding symbols, and a second index with four zero bits (R87). -/
theorem encodeGroup_one (b0 b1 b2 : Byte) : encodeGroup 1 b0 b1 b2 =
    packSymbols (alphabet (b0.extractLsb' 2 6)) (alphabet (b0.extractLsb' 0 2 ++ 0b0000#4)) pad pad := by
  obtain ⟨h0, h1, -, -⟩ := groupIndex_full b0 0x00#8 0x00#8
  simp [encodeGroup, groupSymbol, groupValue_eq_full 1, h0, h1]

/-! ## The encoder's commands -/

/-- A register-free command whose data word is `d` answers OK with `d` and does nothing else. -/
theorem exec_of_registerFreeData_eq {i : Instr} {s : State} {d : Word} (h : isRegisterFree i = true)
    (hd : registerFreeData i = d) (hr : s.rstDone = true) : exec i s = .next (respond s .ok d) :=
  hd ▸ exec_of_registerFree h hr

/-- Settles O20: the row of the opcode map, the data word by bits, and the rule's groups evaluated. -/
theorem enc3EncodesGroup : Obligations.Enc3EncodesGroup := by
  unfold Obligations.Enc3EncodesGroup
  refine ⟨fun w => ?_, fun s b0 b1 b2 => ?_, fun s hr => ⟨?_, ?_, ?_⟩, alphabet_ne_pad, by decide⟩
  · obtain ⟨-, -, hrow, -⟩ := opcodeMapRows w
    exact hrow
  · exact exec_of_registerFreeData_eq rfl (encodeGroup_three b0 b1 b2)
  · exact exec_of_registerFreeData_eq rfl (by decide) hr
  · exact exec_of_registerFreeData_eq rfl (by decide) hr
  · exact exec_of_registerFreeData_eq rfl (by decide) hr

/-- Two zero bits at the low end make a multiple of 4 (R86). -/
theorem append_two_zeros_mod_four (x : BitVec 4) : (x ++ 0b00#2).toNat % 4 = 0 := by
  revert x; decide

/-- Settles O21: the row of the opcode map, the data word by bits, and the rule's groups evaluated. -/
theorem enc2EncodesGroup : Obligations.Enc2EncodesGroup := by
  unfold Obligations.Enc2EncodesGroup
  refine ⟨fun w => ?_, fun s b0 b1 => ?_, fun s hr => ⟨?_, ?_, ?_⟩, fun b1 => append_two_zeros_mod_four _, by decide⟩
  · obtain ⟨-, hrow, -⟩ := opcodeMapRows w
    exact hrow
  · exact exec_of_registerFreeData_eq rfl (encodeGroup_two b0 b1 0x00#8)
  · exact exec_of_registerFreeData_eq rfl (by decide) hr
  · exact exec_of_registerFreeData_eq rfl (by decide) hr
  · exact exec_of_registerFreeData_eq rfl (by decide) hr

/-- The four indices above four zero bits hold `A`, `Q`, `g` and `w` (R87). -/
theorem alphabet_append_four_zeros (x : BitVec 2) : alphabet (x ++ 0b0000#4) ∈ [0x41#8, 0x51#8, 0x67#8, 0x77#8] := by
  revert x; decide

/-- Settles O22: the row of the opcode map, the data word by bits, and the rule's groups evaluated. -/
theorem enc1EncodesGroup : Obligations.Enc1EncodesGroup := by
  unfold Obligations.Enc1EncodesGroup
  refine ⟨fun w => ?_, fun s b0 => ?_, fun s hr => ⟨?_, ?_, ?_⟩, fun b0 => alphabet_append_four_zeros _, by decide⟩
  · obtain ⟨hrow, -⟩ := opcodeMapRows w
    exact hrow
  · exact exec_of_registerFreeData_eq rfl (encodeGroup_one b0 0x00#8 0x00#8)
  · exact exec_of_registerFreeData_eq rfl (by decide) hr
  · exact exec_of_registerFreeData_eq rfl (by decide) hr
  · exact exec_of_registerFreeData_eq rfl (by decide) hr

/-- Settles O23: the row of the opcode map, the register-free answer, and the ROM's entries. -/
theorem alphReadsAlphabet : Obligations.AlphReadsAlphabet := by
  unfold Obligations.AlphReadsAlphabet
  refine ⟨fun w => ?_, fun s idx hr => exec_of_registerFree rfl hr, rfl, rfl, rfl, rfl, alphabet_ne_pad⟩
  obtain ⟨-, -, -, -, -, -, -, hrow, -⟩ := opcodeMapRows w
  exact hrow

/-- The ENC command of a group answers with the group's data word: the lanes it does not have change nothing (R63). -/
theorem exec_encOf {n : Nat} {s : State} (b0 b1 b2 : Byte) (hn : n = 1 ∨ n = 2 ∨ n = 3) (hr : s.rstDone = true) :
    exec (encOf n b0 b1 b2) s = .next (respond s .ok (encodeGroup n b0 b1 b2)) := by
  obtain ⟨hone, htwo⟩ := encodeGroup_unused_lanes b0 b1 b2
  rcases hn with rfl | rfl | rfl
  · exact exec_of_registerFreeData_eq rfl hone.symm hr
  · exact exec_of_registerFreeData_eq rfl htwo.symm hr
  · exact exec_of_registerFree rfl hr

/-- Settles O24: the data word names no state, and its lanes are the formatter's symbols. -/
theorem encoderProperties : Obligations.EncoderProperties := by
  unfold Obligations.EncoderProperties
  intro n b0 b1 b2 hn
  refine ⟨encodeGroup n b0 b1 b2, fun s => exec_encOf b0 b1 b2 hn, fun k hk => ?_⟩
  have hlane : (symbolsOf (encodeGroup n b0 b1 b2))[k]? = some (groupSymbol n (groupValue n b0 b1 b2) k) := by
    rw [symbolsOf_encodeGroup]
    simp [hk]
  rw [hlane]
  exact ⟨fun h => by rw [groupSymbol_of_le _ h], fun h => ⟨_, by rw [groupSymbol_of_lt _ h], alphabet_ne_pad _⟩⟩

end Sys2Proof.Machine

/-! # The decoder family: what DINIT, DSYM, DEND, STAT and RLUT answer, and what a text of symbols leaves -/

namespace Sys2Proof.Machine

/-! ## A command's effect is on the decoder's registers -/

/-- A command with an effect, issued after a reset, completes with it. -/
theorem CommandEffect.exec_eq {s u : State} {i : Instr} {code : RspCode} {data : Word}
    (h : CommandEffect s i u code data) (hr : s.rstDone = true) : exec i s = .next (respond u code data) :=
  exec_eq_next_iff.mpr ⟨hr, _, _, _, h, rfl⟩

/-- The state `s` with the five decoder registers of `r` (R26). -/
def withRegisters (s r : State) : State :=
  { s with acc := r.acc, cnt := r.cnt, err := r.err, padc := r.padc, ipad := r.ipad }

/-- A clean decoder has the registers of the reset state (R33). -/
theorem eq_withRegisters_of_clean {s : State} (h : Clean s) : s = withRegisters s State.reset := by
  obtain ⟨hacc, hcnt, herr, hpadc, hipad⟩ := h
  cases s
  simp_all [withRegisters, State.reset]

/-- A command reads and writes nothing but the decoder's registers. -/
theorem CommandEffect.on_registers {r u : State} {i : Instr} {code : RspCode} {data : Word}
    (h : CommandEffect r i u code data) (s : State) :
    CommandEffect (withRegisters s r) i (withRegisters s u) code data := by
  cases h with
  | registerFree h => exact .registerFree h
  | stat => exact .stat
  | dinit => exact .dinit
  | dend => exact .dend
  | fail h => exact .fail h
  | shift herr hvalid hinv => exact .shift herr hvalid hinv
  | skip herr => exact .skip herr

/-- A command performed on the registers of `r` answers as it does there. -/
theorem CommandEffect.exec_withRegisters {s r u : State} {i : Instr} {code : RspCode} {data : Word}
    (h : CommandEffect r i u code data) (hr : s.rstDone = true) :
    exec i (withRegisters s r) = .next (respond (withRegisters s u) code data) :=
  (h.on_registers s).exec_eq hr

@[simp] theorem statusWord_withRegisters (s r : State) : statusWord (withRegisters s r) = statusWord r := rfl

/-- A clean decoder's status is 0 (R29). -/
theorem statusWord_of_clean {s : State} (h : Clean s) : statusWord s = 0x00000000#32 := by
  rw [eq_withRegisters_of_clean h, statusWord_withRegisters]
  decide

/-- A cleared decoder buffers no bit, so it meets `INV` (R28). -/
theorem decoderInv_clearDecoder (s : State) : DecoderInv (clearDecoder s) :=
  ⟨.inl rfl, Nat.two_pow_pos _⟩

/-- DINIT and DEND, which clear the decoder and answer, leave a state that meets `INV` (R101, R108). -/
theorem decoderInv_of_clear {s t : State} {code : RspCode} {data : Word}
    (h : afterReset s (answer (clearDecoder s) code data) = .next t) : DecoderInv t := by
  obtain ⟨-, hanswer⟩ := afterReset_eq_next.mp h
  exact answer_eq_next.mp hanswer ▸ decoderInv_clearDecoder s

/-! ## The data word of DSYM -/

/-- A DSYM response is the status, the four bits above BYTE, and BYTE (R103). -/
theorem dsymData_eq_append (st : BitVec 20) (ps bv : Bool) (byte : Byte) :
    dsymData st ps bv byte = st ++ (0b00#2 ++ BitVec.ofBool ps ++ BitVec.ofBool bv) ++ byte := by
  have hps : st ++ 0b00#2 ++ BitVec.ofBool ps = st ++ (0b00#2 ++ BitVec.ofBool ps) := BitVec.append_assoc
  have hbv : st ++ (0b00#2 ++ BitVec.ofBool ps) ++ BitVec.ofBool bv =
      st ++ (0b00#2 ++ BitVec.ofBool ps ++ BitVec.ofBool bv) := BitVec.append_assoc
  rw [dsymData, hps, hbv]

/-- The response to a padding symbol has PS alone below the status (R105). -/
theorem dsymData_ps (st : BitVec 20) : dsymData st true false 0x00#8 = st ++ 0x200#12 :=
  (dsymData_eq_append st true false 0x00#8).trans BitVec.append_assoc

/-- The response with a byte has BV between the status and BYTE (R106). -/
theorem dsymData_bv (st : BitVec 20) (byte : Byte) : dsymData st false true byte = st ++ 0b0001#4 ++ byte :=
  dsymData_eq_append st false true byte

/-! ## Accepted symbols -/

/-- A text of alphabet and padding symbols, wherever the padding stands (R140). -/
inductive AcceptedText : List Byte → Prop
  | nil : AcceptedText []
  | padding {cs : List Byte} : AcceptedText cs → AcceptedText (0x3D#8 :: cs)
  | symbol (idx : Index) {cs : List Byte} : AcceptedText cs → AcceptedText (alphabet idx :: cs)

theorem acceptedText_of_forall {text : List Byte} (h : ∀ c ∈ text, (rev c).valid = true ∨ c = 0x3D#8) :
    AcceptedText text := by
  induction text with
  | nil => exact .nil
  | cons c cs ih =>
    obtain ⟨hc, hcs⟩ := List.forall_mem_cons.mp h
    rcases hc with hvalid | rfl
    · exact alphabet_rev hvalid ▸ .symbol _ (ih hcs)
    · exact .padding (ih hcs)

@[simp] theorem alphabetIndices_nil : alphabetIndices [] = [] := rfl

@[simp] theorem alphabetIndices_alphabet_cons (idx : Index) (cs : List Byte) :
    alphabetIndices (alphabet idx :: cs) = idx :: alphabetIndices cs := by
  simp [alphabetIndices]

@[simp] theorem alphabetIndices_pad_cons (cs : List Byte) : alphabetIndices (0x3D#8 :: cs) = alphabetIndices cs := by
  simp [alphabetIndices, rev_padSymbol]

/-- The registers after a symbol that DSYM accepts: an alphabet symbol shifted in, or the padding symbol counted
(R105, R106). -/
def acceptSymbol (s : State) (c : Byte) : State :=
  if (rev c).valid then shiftIn s (rev c).idx else { s with padc := padcNext s }

@[simp] theorem acceptSymbol_alphabet (s : State) (idx : Index) : acceptSymbol s (alphabet idx) = shiftIn s idx := by
  simp [acceptSymbol]

@[simp] theorem acceptSymbol_pad (s : State) : acceptSymbol s 0x3D#8 = { s with padc := padcNext s } := by
  simp [acceptSymbol, rev_padSymbol]

/-- The registers after the symbols of a text, accepted in order. -/
def acceptText (text : List Byte) (s : State) : State := text.foldl acceptSymbol s

theorem acceptText_cons (c : Byte) (cs : List Byte) (s : State) :
    acceptText (c :: cs) s = acceptText cs (acceptSymbol s c) := rfl

theorem acceptText_withRegisters (text : List Byte) (s r : State) :
    acceptText text (withRegisters s r) = withRegisters s (acceptText text r) := by
  induction text generalizing r with
  | nil => rfl
  | cons c cs ih =>
    have hstep : acceptSymbol (withRegisters s r) c = withRegisters s (acceptSymbol r c) := by
      unfold acceptSymbol
      split <;> rfl
    rw [acceptText_cons, hstep, ih, acceptText_cons]

/-- A response that is out changes nothing in what a text does to the registers. -/
theorem acceptText_respond (text : List Byte) (s : State) (code : RspCode) (data : Word) :
    acceptText text (respond s code data) = withRegisters (respond s code data) (acceptText text s) :=
  acceptText_withRegisters text (respond s code data) s

/-- Presenting the padding symbol counts it and collects no byte (R105, R134). -/
theorem presentText_cons_pad {s : State} (hready : Ready s) (herr : s.err = false) (cs : List Byte) :
    ∃ data, presentText (0x3D#8 :: cs) s = presentText cs (respond { s with padc := padcNext s } .ok data) := by
  refine ⟨dsymData (statusBits { s with padc := padcNext s }) true false 0x00#8, ?_⟩
  rw [presentText, issue_eq_some (decode_encode_dsym _) hready (.skip herr)]
  simp [byteOf_dsymData]

/-- Presenting a text of alphabet and padding symbols: the bytes are those of the source's accumulator, and the registers
are those of its symbols accepted in order (R106, R140). -/
theorem presentText_accepted {text : List Byte} (htext : AcceptedText text) : ∀ {s : State} {b : Nat}, Ready s →
    DecoderInv s → s.err = false → s.acc.toNat = b % 2 ^ s.cnt.toNat →
    ∃ rs, presentText text s = some (sourceDecode b s.cnt.toNat (alphabetIndices text),
      withRegisters { s with responses := rs } (acceptText text s)) := by
  induction htext with
  | nil => exact fun _ _ _ _ => ⟨_, rfl⟩
  | @padding cs htext ih =>
    intro s b hready hinv herr hacc
    obtain ⟨data, hpresent⟩ := presentText_cons_pad hready herr cs
    obtain ⟨rs, hrest⟩ := ih (s := respond { s with padc := padcNext s } .ok data) hready hinv herr hacc
    refine ⟨rs, ?_⟩
    rw [hpresent, hrest, acceptText_respond, alphabetIndices_pad_cons, acceptText_cons, acceptSymbol_pad]
    rfl
  | @symbol idx cs htext ih =>
    intro s b hready hinv herr hacc
    obtain ⟨data, hpresent⟩ := presentText_cons_alphabet hready hinv herr idx cs
    obtain ⟨rs, hrest⟩ := ih (s := respond (shiftIn s idx) .ok data) (b := b * 64 + idx.toNat) hready
      (decoderInv_shiftIn hinv idx) herr (accNext_refines hinv hacc idx)
    refine ⟨rs, ?_⟩
    rw [hpresent, hrest, acceptText_respond, alphabetIndices_alphabet_cons, sourceDecode_cons hinv hacc, acceptText_cons,
      acceptSymbol_alphabet]
    rfl

/-- The same from a clean decoder: the source's accumulator begins empty, and the registers are those the text leaves
after reset. -/
theorem presentText_of_clean {text : List Byte} (htext : AcceptedText text) {s : State} (hready : Ready s)
    (hclean : Clean s) : ∃ rs, presentText text s = some (sourceDecode 0 0 (alphabetIndices text),
      withRegisters { s with responses := rs } (acceptText text State.reset)) := by
  rw [eq_withRegisters_of_clean hclean]
  obtain ⟨rs, hpresent⟩ := presentText_accepted htext (s := withRegisters s State.reset) (b := 0) hready
    (decoderInv_clearDecoder s) rfl rfl
  exact ⟨rs, by rw [hpresent, acceptText_withRegisters]; rfl⟩

/-- An accepted text raises no error. -/
theorem acceptText_err (text : List Byte) (s : State) : (acceptText text s).err = s.err := by
  induction text generalizing s with
  | nil => rfl
  | cons c cs ih =>
    rw [acceptText_cons, ih]
    unfold acceptSymbol
    split <;> rfl

/-- An accepted text shifts in six bits for each alphabet symbol and takes out bytes of eight (R111). -/
theorem acceptText_cnt {text : List Byte} (htext : AcceptedText text) : ∀ {s : State}, DecoderInv s →
    (acceptText text s).cnt.toNat = (s.cnt.toNat + 6 * (alphabetIndices text).length) % 8 := by
  induction htext with
  | nil =>
    intro s hinv
    obtain ⟨hcnt | hcnt | hcnt | hcnt, -⟩ := hinv <;> simp [acceptText, alphabetIndices, hcnt]
  | padding _ ih =>
    intro s hinv
    rw [acceptText_cons, acceptSymbol_pad, ih (s := { s with padc := padcNext s }) hinv, alphabetIndices_pad_cons]
  | symbol idx _ ih =>
    intro s hinv
    have hnext := (cntNext_toNat hinv).1
    rw [acceptText_cons, acceptSymbol_alphabet, ih (decoderInv_shiftIn hinv idx), shiftIn_cnt,
      alphabetIndices_alphabet_cons, List.length_cons]
    omega

/-- The source emits a byte for every eight bits (R111). -/
theorem length_sourceDecode (idxs : List Index) : ∀ {b n : Nat}, n < 8 →
    (sourceDecode b n idxs).length = (n + 6 * idxs.length) / 8 := by
  induction idxs with
  | nil =>
    intro b n hn
    simp [sourceDecode, Nat.div_eq_of_lt hn]
  | cons idx idxs ih =>
    intro b n hn
    rw [sourceDecode]
    split
    · rw [List.length_cons, ih (by omega), List.length_cons]
      omega
    · rw [ih (by omega), List.length_cons]
      omega

/-- Settles O55: the source's bytes and the block's count, for a text that begins with nothing buffered. -/
theorem residualCount : Obligations.ResidualCount := by
  unfold Obligations.ResidualCount
  intro text s hready hclean hall
  have htext := acceptedText_of_forall hall
  obtain ⟨rs, hpresent⟩ := presentText_of_clean htext hready hclean
  refine ⟨_, _, hpresent, acceptText_err text State.reset, ?_, ?_⟩
  · simpa using length_sourceDecode (alphabetIndices text) (b := 0) (n := 0) (by decide)
  · exact (acceptText_cnt htext (decoderInv_clearDecoder State.reset)).trans (by simp)

/-! ## A group decodes to its bytes -/

/-- An index made of two bits of one byte and four of the next, as a number. -/
theorem toNat_append_two_four (x : BitVec 2) (y : BitVec 4) : BitVec.toNat (w := 6) (x ++ y) = x.toNat * 16 + y.toNat := by
  revert x y; decide

/-- An index made of four bits of one byte and two of the next, as a number. -/
theorem toNat_append_four_two (x : BitVec 4) (y : BitVec 2) : BitVec.toNat (w := 6) (x ++ y) = x.toNat * 4 + y.toNat := by
  revert x y; decide

/-- The source's accumulator completes the bytes of a group at its second, third and fourth index (R82, R106). -/
theorem sourceDecode_group (b0 b1 b2 : Byte) :
    sourceDecode 0 0 [b0.extractLsb' 2 6, b0.extractLsb' 0 2 ++ b1.extractLsb' 4 4] = [b0] ∧
    sourceDecode 0 0 [b0.extractLsb' 2 6, b0.extractLsb' 0 2 ++ b1.extractLsb' 4 4,
      b1.extractLsb' 0 4 ++ b2.extractLsb' 6 2] = [b0, b1] ∧
    sourceDecode 0 0 [b0.extractLsb' 2 6, b0.extractLsb' 0 2 ++ b1.extractLsb' 4 4,
      b1.extractLsb' 0 4 ++ b2.extractLsb' 6 2, b2.extractLsb' 0 6] = [b0, b1, b2] := by
  have h0 := b0.isLt
  have h1 := b1.isLt
  have h2 := b2.isLt
  simp [sourceDecode, ← BitVec.toNat_inj, toNat_append_two_four, toNat_append_four_two, Nat.shiftRight_eq_div_pow]
  omega

/-- The symbols of a group's data word are an accepted text, from which the source's accumulator makes its bytes. -/
theorem decode_symbolsOf_encodeGroup {n : Nat} (b0 b1 b2 : Byte) (hn : n = 1 ∨ n = 2 ∨ n = 3) :
    AcceptedText (symbolsOf (encodeGroup n b0 b1 b2)) ∧
      sourceDecode 0 0 (alphabetIndices (symbolsOf (encodeGroup n b0 b1 b2))) = [b0, b1, b2].take n := by
  rcases hn with rfl | rfl | rfl
  · obtain ⟨hone, -, -⟩ := sourceDecode_group b0 0x00#8 0x00#8
    rw [encodeGroup_one, symbolsOf_packSymbols]
    exact ⟨.symbol _ (.symbol _ (.padding (.padding .nil))), by simpa [pad] using hone⟩
  · obtain ⟨-, htwo, -⟩ := sourceDecode_group b0 b1 0x00#8
    rw [encodeGroup_two, symbolsOf_packSymbols]
    exact ⟨.symbol _ (.symbol _ (.symbol _ (.padding .nil))), by simpa [pad] using htwo⟩
  · obtain ⟨-, -, hthree⟩ := sourceDecode_group b0 b1 b2
    rw [encodeGroup_three, symbolsOf_packSymbols]
    exact ⟨.symbol _ (.symbol _ (.symbol _ (.symbol _ .nil))), by simpa using hthree⟩

/-- Settles O25: the response's symbols are an accepted text, presented to a decoder that is still clean. -/
theorem groupDecodesToItsBytes : Obligations.GroupDecodesToItsBytes := by
  unfold Obligations.GroupDecodesToItsBytes
  intro n b0 b1 b2 s t hn hready hclean h
  rw [exec_encOf b0 b1 b2 hn hready.1] at h
  cases h
  obtain ⟨htext, hbytes⟩ := decode_symbolsOf_encodeGroup b0 b1 b2 hn
  obtain ⟨rs, hpresent⟩ := presentText_of_clean htext (s := respond s .ok (encodeGroup n b0 b1 b2)) hready hclean
  exact ⟨_, _, rfl, hbytes ▸ hpresent⟩

/-! ## DSYM: the ways it completes, and its response -/

/-- Under `INV` DSYM has an effect for every symbol: the sticky error, else that of the symbol's kind (R102). -/
theorem exists_dsym_effect {s : State} (hinv : DecoderInv s) (sym : Byte) :
    ∃ u code data, CommandEffect s (.dsym sym) u code data := by
  cases herr : s.err with
  | true => exact ⟨_, _, _, .fail (.inl herr)⟩
  | false =>
    obtain ⟨hvalid, -⟩ | ⟨rfl, -⟩ | ⟨-, hinvalid⟩ := rev_cases sym
    · exact ⟨_, _, _, .shift herr hvalid hinv⟩
    · exact ⟨_, _, _, .skip herr⟩
    · exact ⟨_, _, _, .fail (.inr hinvalid)⟩

/-- Settles O35, by the effect DSYM has. -/
theorem dsymCompletesOnEverySymbol : Obligations.DsymCompletesOnEverySymbol := by
  unfold Obligations.DsymCompletesOnEverySymbol
  intro s sym hr hinv
  obtain ⟨u, code, data, heffect⟩ := exists_dsym_effect hinv sym
  refine ⟨_, ⟨code, data⟩, heffect.exec_eq hr, ?_⟩
  cases heffect with
  | registerFree h => exact absurd h Bool.false_ne_true
  | fail => exact ⟨hinv, rfl, rfl, fun _ => rfl⟩
  | shift => exact ⟨decoderInv_shiftIn hinv _, rfl, rfl, nofun⟩
  | skip => exact ⟨hinv, rfl, rfl, nofun⟩

/-- The fields of a DSYM response below the status (R103). -/
theorem dsymData_fields (st : BitVec 20) (ps bv : Bool) (byte : Byte) :
    (dsymData st ps bv byte).extractLsb' 10 2 = 0#2 ∧ (dsymData st ps bv byte).getLsbD 9 = ps ∧
      (dsymData st ps bv byte).getLsbD 8 = bv ∧ (dsymData st ps bv byte).extractLsb' 0 8 = byte := by
  refine ⟨?_, by rw [getLsbD_dsymData]; rfl, by rw [getLsbD_dsymData]; rfl, ?_⟩ <;>
    apply BitVec.eq_of_getLsbD_eq <;> intro k hk <;> rw [BitVec.getLsbD_extractLsb', getLsbD_dsymData]
  · simp [show ¬ 10 + k < 8 by omega, show 10 + k ≠ 8 by omega, show 10 + k ≠ 9 by omega, show 10 + k < 12 by omega]
  · simp [hk]

/-- PS, BV and BYTE of the response, by the symbol presented (R103). -/
theorem CommandEffect.dsym_fields {s u : State} {sym : Byte} {code : RspCode} {data : Word}
    (h : CommandEffect s (.dsym sym) u code data) :
    ∃ ps bv byte, data = dsymData (statusBits u) ps bv byte ∧ (ps = true ↔ s.err = false ∧ sym = 0x3D#8) ∧
      (bv = true ↔ s.err = false ∧ (rev sym).valid = true ∧ emitsByte s = true) ∧ (bv = false → byte = 0x00#8) := by
  cases h with
  | registerFree h => exact absurd h Bool.false_ne_true
  | fail hcause =>
    have hpad : ¬ (s.err = false ∧ sym = 0x3D#8) := by
      rintro ⟨herr, rfl⟩
      simp [herr, rev_padSymbol] at hcause
    have hvalid : ¬ (s.err = false ∧ (rev sym).valid = true ∧ emitsByte s = true) := by
      rintro ⟨herr, hvalid, -⟩
      rcases hcause with h | h <;> simp_all
    exact ⟨false, false, _, append_zeros_eq_dsymData _, by simp [hpad], by simp [hvalid], fun _ => rfl⟩
  | shift herr hvalid =>
    have hpad : sym ≠ 0x3D#8 := by
      rintro rfl
      simp [rev_padSymbol] at hvalid
    refine ⟨false, _, _, rfl, by simp [hpad], by simp [herr, hvalid], fun hemits => ?_⟩
    simp [emittedByte, hemits]
  | skip herr => exact ⟨true, false, _, rfl, by simp [herr], by simp [rev_padSymbol], fun _ => rfl⟩

/-- Settles O34: every effect of DSYM answers with a word of this layout. -/
theorem dsymResponseFields : Obligations.DsymResponseFields := by
  unfold Obligations.DsymResponseFields
  intro s t sym h
  obtain ⟨-, u, code, data, heffect, rfl⟩ := exec_eq_next_iff.mp h
  obtain ⟨-, -, -, -, hresponses⟩ := heffect.frame
  obtain ⟨ps, bv, byte, rfl, hps, hbv, hbyte⟩ := heffect.dsym_fields
  obtain ⟨hzeros, hbit9, hbit8, hlow⟩ := dsymData_fields (statusBits u) ps bv byte
  refine ⟨⟨code, dsymData (statusBits u) ps bv byte⟩, by rw [respond_responses, hresponses], ?_, hzeros, ?_, ?_, ?_⟩
  · rw [extractLsb'_dsymData, extractLsb'_statusWord, statusBits_respond]
  · rw [hbit9, hps]
  · rw [hbit8, hbv, emitsByte, decide_eq_true_eq, cntShifted]
  · rwa [hbit8, hlow]

/-! ## DSYM with an alphabet symbol -/

/-- The low eight bits of a number, cut off before or by the conversion to a byte. -/
theorem ofNat_and_byteMask (x : Nat) : BitVec.ofNat 8 (x &&& 0xFF) = BitVec.ofNat 8 x := by
  apply BitVec.eq_of_toNat_eq
  simp [Nat.and_two_pow_sub_one_eq_mod x 8]

/-- Under `INV` an alphabet symbol is shifted in, and the response holds a byte with BV above it where 8 or more bits are
buffered, else zeros (R106). -/
theorem exec_dsym_alphabet {s : State} {sym : Byte} {idx : Index} (hr : s.rstDone = true) (hinv : DecoderInv s)
    (herr : s.err = false) (hrev : rev sym = ⟨false, true, idx⟩) :
    ∃ data, exec (.dsym sym) s = .next (respond (shiftIn s idx) .ok data) ∧
      data = if 8 ≤ cntShifted s then statusBits (shiftIn s idx) ++ 0b0001#4 ++
          BitVec.ofNat 8 ((accShifted s idx >>> (cntShifted s - 8)) &&& 0xFF)
        else statusBits (shiftIn s idx) ++ 0x000#12 := by
  have hexec := (CommandEffect.shift (sym := sym) herr (by rw [hrev]) hinv).exec_eq hr
  rw [hrev] at hexec
  refine ⟨_, hexec, ?_⟩
  by_cases hemit : 8 ≤ cntShifted s
  · rw [if_pos hemit, ofNat_and_byteMask, ← dsymData_bv]
    simp [emittedByte, emitsByte, hemit]
  · rw [if_neg hemit, append_zeros_eq_dsymData]
    simp [emittedByte, emitsByte, hemit]

/-- Settles O32: the effect of an alphabet symbol, in the two cases of the count, and the rule's example evaluated. -/
theorem dsymShiftsInSymbol : Obligations.DsymShiftsInSymbol := by
  unfold Obligations.DsymShiftsInSymbol
  constructor
  · intro s sym idx hr hinv herr hrev
    obtain ⟨data, hexec, hdata⟩ := exec_dsym_alphabet hr hinv herr hrev
    obtain ⟨hlt, hle⟩ := accShifted_lt hinv idx
    have hacc := accNext_refines hinv (Nat.mod_eq_of_lt hinv.2).symm idx
    have hcycle := (cntNext_toNat hinv).1
    refine ⟨hlt.trans_le (Nat.pow_le_pow_right (by decide) hle), respond (shiftIn s idx) .ok data,
      decoderInv_shiftIn hinv idx, herr, rfl, ipadNext_eq_true, rfl, rfl, rfl, rfl, fun hemit => ?_, fun hkeep => ?_⟩
    · have hcnt : (cntNext s).toNat = s.cnt.toNat + 6 - 8 := by omega
      rw [hcnt] at hacc
      rw [cntShifted, if_pos hemit] at hdata
      rw [extractLsb'_statusWord]
      exact ⟨hcnt, hacc, hexec, hdata ▸ rfl⟩
    · have hcnt : (cntNext s).toNat = s.cnt.toNat + 6 := by omega
      rw [hcnt] at hacc
      rw [cntShifted, if_neg (Nat.not_le.mpr hkeep)] at hdata
      rw [extractLsb'_statusWord]
      exact ⟨hcnt, hacc.trans (Nat.mod_eq_of_lt hlt), hexec, hdata ▸ rfl⟩
  · intro s hready hclean
    have heffect : CommandEffect (acceptText [0x5A#8] State.reset) (.dsym 0x6D#8)
        { acceptText [0x5A#8] State.reset with cnt := 4#4, acc := 0x006#12 } .ok 0x04006166#32 :=
      .shift rfl rfl (by decide)
    obtain ⟨rs, hpresent⟩ := presentText_of_clean (acceptedText_of_forall (text := [0x5A#8]) (by decide)) hready hclean
    exact ⟨_, hpresent, rfl, rfl, heffect.exec_withRegisters hready.1⟩

/-- The cycle of the counts under `INV`, and where in it a byte is emitted (R107). -/
theorem cntNext_cycle {s : State} (hinv : DecoderInv s) :
    (s.cnt = 0#4 ∧ cntNext s = 6#4 ∧ emitsByte s = false) ∨ (s.cnt = 6#4 ∧ cntNext s = 4#4 ∧ emitsByte s = true) ∨
      (s.cnt = 4#4 ∧ cntNext s = 2#4 ∧ emitsByte s = true) ∨ (s.cnt = 2#4 ∧ cntNext s = 0#4 ∧ emitsByte s = true) := by
  obtain ⟨hcnt | hcnt | hcnt | hcnt, -⟩ := hinv <;> simp [cntNext, emitsByte, cntShifted, hcnt]

/-- With ERR = 0 a valid symbol that DSYM accepts is shifted in, and BV of the response says whether a byte is emitted
(R106). -/
theorem exec_dsym_valid {s t : State} {sym : Byte} (herr : s.err = false) (hvalid : (rev sym).valid = true)
    (h : exec (.dsym sym) s = .next t) :
    ∃ data, t = respond (shiftIn s (rev sym).idx) .ok data ∧ data[8] = emitsByte s := by
  obtain ⟨-, hpresent⟩ := afterReset_eq_next.mp h
  rw [herr, hvalid, if_neg Bool.false_ne_true, if_pos rfl, presentSymbol_eq_next] at hpresent
  obtain ⟨-, rfl⟩ := hpresent
  obtain ⟨-, -, hbv, -⟩ := dsymData_fields (statusBits (shiftIn s (rev sym).idx)) false (emitsByte s)
    (emittedByte s (rev sym).idx)
  exact ⟨_, rfl, hbv⟩

/-- Settles O33: at each of the four counts, the next one and whether BV is set. -/
theorem dsymBounds : Obligations.DsymBounds := by
  unfold Obligations.DsymBounds
  intro s t sym hinv herr hvalid h
  obtain ⟨data, rfl, hbv⟩ := exec_dsym_valid herr hvalid h
  rcases cntNext_cycle hinv with ⟨hcnt, hnext, hemits⟩ | ⟨hcnt, hnext, hemits⟩ | ⟨hcnt, hnext, hemits⟩ |
    ⟨hcnt, hnext, hemits⟩ <;> simp [hcnt, hnext, hbv, hemits]

/-! ## DSYM with the padding symbol -/

/-- Settles O31: the effect of the padding symbol, and the rule's example evaluated. -/
theorem dsymPaddingIsSkipped : Obligations.DsymPaddingIsSkipped := by
  unfold Obligations.DsymPaddingIsSkipped
  constructor
  · intro s hr herr
    rw [extractLsb'_statusWord, ← dsymData_ps]
    exact (CommandEffect.skip herr).exec_eq hr
  · intro s hready hclean
    have heffect : CommandEffect (acceptText [0x5A#8, 0x67#8] State.reset) (.dsym 0x3D#8)
        { acceptText [0x5A#8, 0x67#8] State.reset with padc := 1#2 } .ok 0x14000200#32 := .skip rfl
    obtain ⟨rs, hpresent⟩ :=
      presentText_of_clean (acceptedText_of_forall (text := [0x5A#8, 0x67#8]) (by decide)) hready hclean
    exact ⟨_, hpresent, heffect.exec_withRegisters hready.1⟩

/-! ## DSYM with an invalid symbol, and the sticky error -/

/-- Bit 31 of the status is ERR (R29). -/
theorem statusWord_bit31 (s : State) : (statusWord s).getLsbD 31 = s.err := by
  rw [getLsbD_statusWord, getLsbD_statusBits]
  simp

/-- The response to an invalid symbol from reset (R104). -/
theorem effect_invalid_reset :
    CommandEffect State.reset (.dsym 0x21#8) { State.reset with err := true } .invalidCharacter 0x80000000#32 :=
  .fail (.inr rfl)

/-- ERR persists through every word but those of DINIT and DEND (R104). -/
theorem performWord_keeps_err {s t : State} {w : Word} (h : performWord w s = .next t) (herr : s.err = true)
    (hdinit : decode w ≠ .ok .dinit) (hdend : decode w ≠ .ok .dend) : t.err = true := by
  cases hdecode : decode w with
  | error e =>
    obtain ⟨_, _, rfl⟩ := performWord_eq_respond (.inr ⟨e, hdecode⟩) h
    exact herr
  | ok i =>
    rw [performWord_ok hdecode] at h
    obtain ⟨-, -, -, hcleared⟩ := flagsSetByDsymClearedByInitOrEnd _ _ _ h
    by_contra hlost
    rcases hcleared (.inl ⟨herr, by simpa using hlost⟩) with rfl | rfl
    · exact hdinit hdecode
    · exact hdend hdecode

/-- Settles O30: both causes are the failing effect, and ERR falls in DINIT, DEND and reset only. -/
theorem dsymInvalidIsSticky : Obligations.DsymInvalidIsSticky := by
  unfold Obligations.DsymInvalidIsSticky
  simp only [extractLsb'_statusWord]
  refine ⟨fun s sym hr herr hinvalid => ⟨?_, ?_⟩, fun s sym hr herr => ?_, rfl, fun s t w h => performWord_keeps_err h,
    fun s hr => ⟨?_, ?_⟩, fun s => rfl, fun s hr hclean => ?_⟩
  · exact (CommandEffect.fail (.inr hinvalid)).exec_eq hr
  · exact statusWord_bit31 { s with err := true }
  · have hsame : { s with err := true } = s := by rw [← herr]
    have hexec := (CommandEffect.fail (sym := sym) (.inl herr)).exec_eq hr
    rwa [hsame] at hexec
  · exact ⟨_, CommandEffect.dinit.exec_eq hr, rfl⟩
  · exact ⟨_, CommandEffect.dend.exec_eq hr, rfl⟩
  · rw [eq_withRegisters_of_clean hclean]
    exact effect_invalid_reset.exec_withRegisters hr

/-! ## DINIT, DEND, STAT and RLUT -/

/-- Settles O26: the row of the opcode map, the effect, and the rule's example evaluated. -/
theorem dinitClears : Obligations.DinitClears := by
  unfold Obligations.DinitClears
  refine ⟨fun w => ?_, fun s hr => CommandEffect.dinit.exec_eq hr, fun s t => decoderInv_of_clear, by decide,
    fun s t hr hclean h => ?_⟩
  · obtain ⟨-, -, -, hrow, -⟩ := opcodeMapRows w
    exact hrow
  · have hsymbol : CommandEffect State.reset (.dsym 0x5A#8) { State.reset with acc := 25#12, cnt := 6#4 } .ok
        0x06019000#32 := .shift rfl rfl (by decide)
    rw [eq_withRegisters_of_clean hclean, hsymbol.exec_withRegisters hr] at h
    cases h
    have hclear : CommandEffect { State.reset with acc := 25#12, cnt := 6#4 } .dinit State.reset .ok 0x06019000#32 := .dinit
    exact ⟨_, hclear.exec_withRegisters (s := respond s .ok 0x06019000#32) hr, ⟨rfl, rfl, rfl, rfl, rfl⟩, rfl⟩

/-- After an accepted text presented to a clean decoder, DEND answers OK with the status the text leaves (R108). -/
theorem dend_after_text {text out : List Byte} {status : Word} {s : State} (hready : Ready s) (hclean : Clean s)
    (htext : ∀ c ∈ text, (rev c).valid = true ∨ c = 0x3D#8) (hout : sourceDecode 0 0 (alphabetIndices text) = out)
    (hstatus : statusWord (acceptText text State.reset) = status) :
    ∃ t u, presentText text s = some (out, t) ∧ exec .dend t = .next u ∧ u.responses = t.responses ++ [⟨.ok, status⟩] := by
  subst hout hstatus
  obtain ⟨rs, hpresent⟩ := presentText_of_clean (acceptedText_of_forall htext) hready hclean
  have heffect := CommandEffect.dend (s := acceptText text State.reset)
  rw [acceptText_err, if_neg (by decide)] at heffect
  exact ⟨_, _, hpresent, heffect.exec_withRegisters hready.1, rfl⟩

/-- Settles O27: the row of the opcode map, the effect, and the rule's two examples. -/
theorem dendReportsAndClears : Obligations.DendReportsAndClears := by
  unfold Obligations.DendReportsAndClears
  refine ⟨fun w => ?_, fun s hr => CommandEffect.dend.exec_eq hr, fun s t => decoderInv_of_clear,
    fun s => statusWord_of_clean, fun s hready hclean => ⟨?_, ?_⟩⟩
  · obtain ⟨-, -, -, -, -, hrow, -⟩ := opcodeMapRows w
    exact hrow
  · exact dend_after_text hready hclean (by decide) (by decide) (by decide)
  · exact dend_after_text hready hclean (by decide) (by decide) (by decide)

/-- Settles O28: the row of the opcode map, the effect, and the rule's example. -/
theorem statReadsStatus : Obligations.StatReadsStatus := by
  unfold Obligations.StatReadsStatus
  refine ⟨fun w => ?_, fun s hr => ⟨CommandEffect.stat.exec_eq hr, CommandEffect.stat.exec_eq hr⟩, by decide,
    fun s t hr hclean h => ?_⟩
  · obtain ⟨-, -, -, -, -, -, hrow, -⟩ := opcodeMapRows w
    exact hrow
  · rw [eq_withRegisters_of_clean hclean, effect_invalid_reset.exec_withRegisters hr] at h
    cases h
    have hstat : CommandEffect { State.reset with err := true } .stat _ .ok 0x80000000#32 := .stat
    exact hstat.exec_withRegisters (s := respond s .invalidCharacter 0x80000000#32) hr

/-- The fields of an RLUT response: P in [9], V in [8], IDX in [5:0], and 0 elsewhere (R110). -/
theorem rlutData_fields (e : RevEntry) :
    (rlutData e).extractLsb' 10 22 = 0#22 ∧ (rlutData e).getLsbD 9 = e.pad ∧ (rlutData e).getLsbD 8 = e.valid ∧
      (rlutData e).extractLsb' 6 2 = 0#2 ∧ (rlutData e).extractLsb' 0 6 = e.idx := by
  refine ⟨?_, by rw [getLsbD_rlutData]; simp, by rw [getLsbD_rlutData]; simp, ?_, ?_⟩ <;>
    apply BitVec.eq_of_getLsbD_eq <;> intro k hk <;> rw [BitVec.getLsbD_extractLsb', getLsbD_rlutData]
  · simp [show ¬ 10 + k < 6 by omega, show ¬ 10 + k < 8 by omega, show 10 + k ≠ 8 by omega, show 10 + k ≠ 9 by omega]
  · simp [show 6 + k < 8 by omega]
  · simp [hk]

/-- Settles O29: the row of the opcode map, the fields of the data word, and the rule's codes evaluated. -/
theorem rlutReadsReverseTable : Obligations.RlutReadsReverseTable := by
  unfold Obligations.RlutReadsReverseTable
  refine ⟨fun w => ?_, fun s sym hr => ⟨_, exec_of_registerFree rfl hr, rlutData_fields (rev sym)⟩,
    fun s hr => ⟨?_, ?_, ?_, ?_, ?_⟩⟩
  · obtain ⟨-, -, -, -, -, -, -, -, hrow, -⟩ := opcodeMapRows w
    exact hrow
  · exact exec_of_registerFreeData_eq rfl (by decide) hr
  · exact exec_of_registerFreeData_eq rfl (by decide) hr
  · exact exec_of_registerFreeData_eq rfl (by decide) hr
  · exact exec_of_registerFreeData_eq rfl (by decide) hr
  · exact exec_of_registerFreeData_eq rfl (by decide) hr

end Sys2Proof.Machine

/-! # The transactions family: the host programs `encode` and `decode`, and the end of a run -/

namespace Sys2Proof.Machine

/-! ## The encode program -/

/-- The encode program's commands read and write no decoder register (R131). -/
theorem isRegisterFree_of_mem_encodeProgram {data : List Byte} {i : Instr} (h : i ∈ encodeProgram data) :
    isRegisterFree i = true := by
  induction data using encodeProgram.induct with
  | case1 => simp [encodeProgram] at h
  | case2 | case3 =>
    rw [encodeProgram, List.mem_singleton] at h
    exact h ▸ rfl
  | case4 b0 b1 b2 rest ih =>
    rw [encodeProgram, List.mem_cons] at h
    exact h.elim (fun hi => hi ▸ rfl) ih

/-- One command for every group of three bytes, and one for a shorter final group (R131). -/
theorem length_encodeProgram (data : List Byte) : (encodeProgram data).length = (data.length + 2) / 3 := by
  induction data using encodeProgram.induct with
  | case1 => rfl
  | case2 | case3 => simp [encodeProgram]
  | case4 b0 b1 b2 rest ih =>
    rw [encodeProgram, List.length_cons, ih]
    simp only [List.length_cons]
    omega

/-- Register-free commands issued to a ready block answer their data words, and nothing but the responses changes. -/
theorem issueAll_of_registerFree {is : List Instr} (his : ∀ i ∈ is, isRegisterFree i = true) {s : State}
    (hready : Ready s) :
    ∃ rs, issueAll is s = some (is.map fun i => ⟨.ok, registerFreeData i⟩, { s with responses := rs }) := by
  induction is generalizing s with
  | nil => exact ⟨_, rfl⟩
  | cons i is ih =>
    obtain ⟨hi, his⟩ := List.forall_mem_cons.mp his
    obtain ⟨rs, hrest⟩ := ih his (s := respond s .ok (registerFreeData i)) hready
    refine ⟨rs, ?_⟩
    rw [issueAll, issue_eq_some (decode_encode i) hready (.registerFree hi)]
    simp only [hrest]
    rfl

/-- The text of a byte sequence: the symbols of the data words that the encode program's commands answer (R131). -/
def encodedText (data : List Byte) : List Byte :=
  (encodeProgram data).flatMap fun i => symbolsOf (registerFreeData i)

/-- `encode` returns the text of the data and leaves the block as it was, but for its responses (R131, R132). -/
theorem hostEncode_eq_encodedText (data : List Byte) {s : State} (hready : Ready s) :
    ∃ rs, hostEncode data s = some (encodedText data, { s with responses := rs }) := by
  obtain ⟨rs, hissue⟩ := issueAll_of_registerFree (is := encodeProgram data)
    (fun _ => isRegisterFree_of_mem_encodeProgram) hready
  refine ⟨rs, ?_⟩
  rw [hostEncode, hissue, Option.map_some, List.flatMap_map]
  rfl

/-- Four symbols for each command (R132). -/
theorem length_encodedText (data : List Byte) : (encodedText data).length = 4 * ((data.length + 2) / 3) := by
  rw [encodedText, List.length_flatMap, ← length_encodeProgram, mul_comm]
  simp [symbolsOf]

/-- The number of padding symbols that end the text of `data` (R132). -/
def paddingCount (data : List Byte) : Nat := (3 - data.length % 3) % 3

theorem paddingCount_cons (b0 b1 b2 : Byte) (rest : List Byte) :
    paddingCount (b0 :: b1 :: b2 :: rest) = paddingCount rest := by
  simp only [paddingCount, List.length_cons]
  omega

/-! ## The source's decoder on an encoded text -/

/-- With no bit buffered, the bits already consumed change nothing: a block whose decoder is clean emits the bytes of
both accumulators (R106). -/
theorem sourceDecode_of_consumed (b : Nat) (idxs : List Index) : sourceDecode b 0 idxs = sourceDecode 0 0 idxs := by
  have hready : Ready State.reset := ⟨rfl, rfl⟩
  have hinv : DecoderInv State.reset := decoderInv_clearDecoder State.reset
  obtain ⟨t, ht, -⟩ := accumulatorRefinesSource idxs State.reset b hready hinv rfl (Nat.mod_one b).symm
  obtain ⟨t', ht', -⟩ := accumulatorRefinesSource idxs State.reset 0 hready hinv rfl rfl
  exact congrArg Prod.fst (Option.some.inj (ht.symm.trans ht'))

/-- Four indices fill three bytes and leave nothing buffered for the indices after them (R107). -/
theorem sourceDecode_four_append (i0 i1 i2 i3 : Index) (idxs : List Index) :
    sourceDecode 0 0 (i0 :: i1 :: i2 :: i3 :: idxs) = sourceDecode 0 0 [i0, i1, i2, i3] ++ sourceDecode 0 0 idxs := by
  simp [sourceDecode, sourceDecode_of_consumed]

/-- An encoded text is alphabet symbols, which the source decodes to the data, and then the padding (R132, R138). -/
theorem encodedText_eq_symbols_append_padding (data : List Byte) :
    ∃ idxs, encodedText data = idxs.map alphabet ++ List.replicate (paddingCount data) pad ∧
      sourceDecode 0 0 idxs = data := by
  induction data using encodeProgram.induct with
  | case1 => exact ⟨[], rfl, rfl⟩
  | case2 b0 =>
    obtain ⟨hone, -, -⟩ := sourceDecode_group b0 0x00#8 0x00#8
    refine ⟨_, ?_, hone⟩
    simp [encodedText, encodeProgram, registerFreeData, encodeGroup_one, symbolsOf_packSymbols, paddingCount]
  | case3 b0 b1 =>
    obtain ⟨-, htwo, -⟩ := sourceDecode_group b0 b1 0x00#8
    refine ⟨_, ?_, htwo⟩
    simp [encodedText, encodeProgram, registerFreeData, encodeGroup_two, symbolsOf_packSymbols, paddingCount]
  | case4 b0 b1 b2 rest ih =>
    obtain ⟨idxs, htext, hrest⟩ := ih
    obtain ⟨-, -, hthree⟩ := sourceDecode_group b0 b1 b2
    refine ⟨_ :: _ :: _ :: _ :: idxs, ?_, by rw [sourceDecode_four_append, hthree, hrest]; rfl⟩
    have hgroup : encodedText (b0 :: b1 :: b2 :: rest) = symbolsOf (encodeGroup 3 b0 b1 b2) ++ encodedText rest := rfl
    rw [hgroup, encodeGroup_three, symbolsOf_packSymbols, htext, paddingCount_cons]
    rfl

/-- The alphabet indices of alphabet symbols before padding are theirs (R140). -/
theorem alphabetIndices_symbols_append_padding (idxs : List Index) (k : Nat) :
    alphabetIndices (idxs.map alphabet ++ List.replicate k pad) = idxs := by
  induction idxs with
  | nil => simp [alphabetIndices, pad, rev_padSymbol]
  | cons idx idxs ih => rw [List.map_cons, List.cons_append, alphabetIndices_alphabet_cons, ih]

/-! ## The encode transaction -/

/-- Settles O50: the empty input has no group, so nothing is issued. -/
theorem emptyEncodesToEmpty : Obligations.EmptyEncodesToEmpty := by
  unfold Obligations.EmptyEncodesToEmpty
  exact ⟨rfl, fun _ => rfl⟩

/-- Settles O49: the length by the count of commands, the shape by groups. -/
theorem encodeLengthAndPadding : Obligations.EncodeLengthAndPadding := by
  unfold Obligations.EncodeLengthAndPadding
  intro data s hready
  obtain ⟨rs, hencode⟩ := hostEncode_eq_encodedText data hready
  obtain ⟨idxs, htext, -⟩ := encodedText_eq_symbols_append_padding data
  refine ⟨_, idxs.map alphabet, _, hencode, length_encodedText data, htext, ?_, rfl⟩
  exact List.forall_mem_map.mpr fun idx _ => ⟨by simp, alphabet_ne_pad idx⟩

/-! ## The decode program -/

theorem CommandEffect.ready {s u : State} {i : Instr} {code : RspCode} {data : Word}
    (h : CommandEffect s i u code data) (hready : Ready s) : Ready u := by
  obtain ⟨hrstDone, hinFlight, -⟩ := h.frame
  exact ⟨hrstDone.trans hready.1, hinFlight.trans hready.2⟩

/-- The block after the DINIT that begins a decode transaction (R101, R134). -/
def afterDinit (s : State) : State := respond (clearDecoder s) .ok (statusWord s)

theorem clean_afterDinit (s : State) : Clean (afterDinit s) := ⟨rfl, rfl, rfl, rfl, rfl⟩

theorem decoderInv_afterDinit (s : State) : DecoderInv (afterDinit s) := decoderInv_clearDecoder s

theorem ready_afterDinit {s : State} (hready : Ready s) : Ready (afterDinit s) := hready

theorem issue_dinit {s : State} (hready : Ready s) : issue .dinit s = some (⟨.ok, statusWord s⟩, afterDinit s) :=
  issue_eq_some (decode_encode _) hready .dinit

theorem hostDecode_eq {s : State} (hready : Ready s) (text : List Byte) :
    hostDecode text s = finishDecode (presentText text (afterDinit s)) := by
  rw [hostDecode, issue_dinit hready]

theorem hostDecodeWhole_eq {s : State} (hready : Ready s) (text : List Byte) :
    hostDecodeWhole text s = finishDecode (presentWholeText text (afterDinit s)) := by
  rw [hostDecodeWhole, issue_dinit hready]

/-- The block after the DEND that ends a decode transaction (R108, R134). -/
def afterDend (t : State) : State :=
  respond (clearDecoder t) (if t.err then .invalidCharacter else .ok) (statusWord t)

/-- DEND turns ERR into the host's error (R134). -/
theorem finishDecode_some {t : State} (hready : Ready t) (out : List Byte) :
    finishDecode (some (out, t)) = some (if t.err then .invalidCharacter else .bytes out, afterDend t) := by
  simp only [finishDecode, issue_eq_some (decode_encode _) hready .dend]
  cases herr : t.err <;> simp [afterDend, herr]

/-- What `decode` returns by the state the text leaves: the error where ERR is set, else the collected bytes (R134). -/
theorem hostDecode_of_presentText {text out : List Byte} {s t : State} (hready : Ready s)
    (h : presentText text (afterDinit s) = some (out, t)) (ht : Ready t) :
    ∃ v, hostDecode text s = some (if t.err then .invalidCharacter else .bytes out, v) ∧ Clean v :=
  ⟨afterDend t, by rw [hostDecode_eq hready, h, finishDecode_some ht], rfl, rfl, rfl, rfl, rfl⟩

/-- Settles O53: the text is accepted, so its bytes are the source's and ERR stays 0. -/
theorem tolerantDecode : Obligations.TolerantDecode := by
  unfold Obligations.TolerantDecode
  intro text s hready hall
  obtain ⟨rs, hpresent⟩ :=
    presentText_of_clean (acceptedText_of_forall hall) (ready_afterDinit hready) (clean_afterDinit s)
  obtain ⟨v, hdecode, hclean⟩ := hostDecode_of_presentText hready hpresent hready
  have herr : (acceptText text State.reset).err = false := acceptText_err text State.reset
  exact ⟨v, by simpa [withRegisters, herr] using hdecode, hclean⟩

/-- Settles O51: the encoded text is alphabet symbols and padding, and the source decodes its indices to the data. -/
theorem roundTrip : Obligations.RoundTrip := by
  unfold Obligations.RoundTrip
  intro data s hready
  obtain ⟨rs, hencode⟩ := hostEncode_eq_encodedText data hready
  obtain ⟨idxs, htext, hsource⟩ := encodedText_eq_symbols_append_padding data
  refine ⟨_, _, hencode, hready, fun u hu => ?_⟩
  have hall : ∀ c ∈ encodedText data, (rev c).valid = true ∨ c = 0x3D#8 := by
    rw [htext]
    intro c hc
    rcases List.mem_append.mp hc with hsymbol | hpad
    · obtain ⟨idx, -, rfl⟩ := List.mem_map.mp hsymbol
      exact .inl (by simp)
    · exact .inr (List.eq_of_mem_replicate hpad)
  have hbytes : sourceDecode 0 0 (alphabetIndices (encodedText data)) = data := by
    rw [htext, alphabetIndices_symbols_append_padding, hsource]
  obtain ⟨v, hdecode, hclean⟩ := tolerantDecode (encodedText data) u hu hall
  exact ⟨v, by rw [hdecode, hbytes], hclean⟩

/-! ## Texts with an invalid character -/

/-- Presenting a symbol issues DSYM and takes its response; the host stops at the error (R134). -/
theorem presentText_cons {s u : State} {c : Byte} {code : RspCode} {data : Word} (hready : Ready s)
    (heffect : CommandEffect s (.dsym c) u code data) (cs : List Byte) :
    presentText (c :: cs) s = if code = .invalidCharacter then some ([], respond u code data)
      else (presentText cs (respond u code data)).map fun p => (byteOf data ++ p.1, p.2) := by
  rw [presentText, issue_eq_some (decode_encode _) hready heffect]

/-- The host that does not stop early goes on after every response (R134). -/
theorem presentWholeText_cons {s u : State} {c : Byte} {code : RspCode} {data : Word} (hready : Ready s)
    (heffect : CommandEffect s (.dsym c) u code data) (cs : List Byte) :
    presentWholeText (c :: cs) s =
      (presentWholeText cs (respond u code data)).map fun p => (byteOf data ++ p.1, p.2) := by
  rw [presentWholeText, issue_eq_some (decode_encode _) hready heffect]

/-- While ERR = 0, DSYM fails on an invalid symbol, and on every other symbol it answers OK and keeps ERR = 0 and `INV`
(R102, R104). -/
theorem dsym_effect_cases {s : State} (hinv : DecoderInv s) (herr : s.err = false) (c : Byte) :
    (rev c = ⟨false, false, 0#6⟩ ∧ ∃ data, CommandEffect s (.dsym c) { s with err := true } .invalidCharacter data) ∨
    (rev c ≠ ⟨false, false, 0#6⟩ ∧
      ∃ u data, CommandEffect s (.dsym c) u .ok data ∧ u.err = false ∧ DecoderInv u) := by
  obtain ⟨hvalid, -⟩ | ⟨rfl, hpad⟩ | ⟨-, hinvalid⟩ := rev_cases c
  · exact .inr ⟨fun h => by simp [h] at hvalid, _, _, .shift herr hvalid hinv, herr, decoderInv_shiftIn hinv _⟩
  · exact .inr ⟨by simp [hpad], _, _, .skip herr, herr, hinv⟩
  · exact .inl ⟨hinvalid, _, .fail (.inr hinvalid)⟩

/-- Presenting any text to a decoder without an error completes, and ERR is set exactly by an invalid character in it
(R104, R139). -/
theorem presentText_err_iff (text : List Byte) {s : State} (hready : Ready s) (hinv : DecoderInv s)
    (herr : s.err = false) :
    ∃ out t, presentText text s = some (out, t) ∧ Ready t ∧
      (t.err = true ↔ ∃ c ∈ text, rev c = ⟨false, false, 0#6⟩) := by
  induction text generalizing s with
  | nil => exact ⟨[], s, rfl, hready, by simp [herr]⟩
  | cons c cs ih =>
    obtain ⟨hc, data, heffect⟩ | ⟨hc, u, data, heffect, huerr, huinv⟩ := dsym_effect_cases hinv herr c
    · refine ⟨[], respond { s with err := true } .invalidCharacter data, ?_, hready,
        iff_of_true rfl ⟨c, List.mem_cons_self, hc⟩⟩
      rw [presentText_cons hready heffect, if_pos rfl]
    · obtain ⟨out, t, ht, htready, hterr⟩ := ih (s := respond u .ok data) (heffect.ready hready) huinv huerr
      refine ⟨byteOf data ++ out, t, ?_, htready, by simp [hterr, hc]⟩
      rw [presentText_cons hready heffect, if_neg nofun, ht, Option.map_some]

/-- Settles O52: the character sets ERR, which DEND reports. -/
theorem garbageFails : Obligations.GarbageFails := by
  unfold Obligations.GarbageFails
  rintro text s hready ⟨c, hc, hvalid, hpad⟩
  have hinvalid : rev c = ⟨false, false, 0#6⟩ :=
    rev_eq_invalid hvalid (Bool.eq_false_iff.mpr fun h => hpad (rev_pad_iff.mp h))
  obtain ⟨out, t, hpresent, ht, herr⟩ :=
    presentText_err_iff text (ready_afterDinit hready) (decoderInv_afterDinit s) rfl
  obtain ⟨v, hdecode, hclean⟩ := hostDecode_of_presentText hready hpresent ht
  exact ⟨v, by rw [hdecode, if_pos (herr.mpr ⟨c, hc, hinvalid⟩)], hclean⟩

/-- A character that is not ASCII is presented by a code in 0x80..0xFF (R134). -/
theorem le_charCode_of_not_ascii {ch : Char} (h : 0x80 ≤ ch.toNat) : 0x80 ≤ (charCode ch).toNat := by
  rw [charCode, if_neg (by omega), BitVec.toNat_append]
  exact Nat.left_le_or

/-- Settles O57: REV calls every code from 0x80 up invalid, whichever the free value picks. -/
theorem nonAsciiFails : Obligations.NonAsciiFails := by
  unfold Obligations.NonAsciiFails
  refine ⟨fun ch h => ?_, fun ch => le_charCode_of_not_ascii, fun text s hready ⟨ch, hch, hcode⟩ => ?_⟩
  · rw [charCode, if_pos h, BitVec.toNat_ofNat]
    omega
  · have hhigh := le_charCode_of_not_ascii hcode
    obtain ⟨-, -, -, -, -, -, houtside⟩ := reverseTableContents (charCode ch)
    have hinvalid : rev (charCode ch) = ⟨false, false, 0#6⟩ := houtside (by omega)
    obtain ⟨t, hdecode, -⟩ := garbageFails (text.map charCode) s hready
      ⟨charCode ch, List.mem_map_of_mem hch, by rw [hinvalid], fun hpad => by simp [hpad] at hhigh⟩
    exact ⟨t, hdecode⟩

/-! ## Stopping at the first error -/

/-- While ERR = 1 DSYM leaves the registers as they are (R104). -/
theorem dsym_effect_of_err {s : State} (herr : s.err = true) (c : Byte) :
    ∃ data, CommandEffect s (.dsym c) s .invalidCharacter data := by
  have heffect := CommandEffect.fail (sym := c) (.inl herr)
  have hsame : { s with err := true } = s := by
    rw [← herr]
  rw [hsame] at heffect
  exact ⟨_, heffect⟩

/-- After the error the remaining characters change no register (R104, R134). -/
theorem presentWholeText_of_err (text : List Byte) {s : State} (hready : Ready s) (herr : s.err = true) :
    ∃ out rs, presentWholeText text s = some (out, { s with responses := rs }) := by
  induction text generalizing s with
  | nil => exact ⟨_, _, rfl⟩
  | cons c cs ih =>
    obtain ⟨data, heffect⟩ := dsym_effect_of_err herr c
    obtain ⟨out, rs, hrest⟩ := ih (s := respond s .invalidCharacter data) hready herr
    exact ⟨_, rs, by rw [presentWholeText_cons hready heffect, hrest]; rfl⟩

/-- The host that presents the whole text leaves the registers of the one that stops early, and collects the same bytes
where there is no error (R134). -/
theorem presentWholeText_of_presentText {text out : List Byte} {s t : State} (hready : Ready s) (hinv : DecoderInv s)
    (herr : s.err = false) (h : presentText text s = some (out, t)) :
    ∃ out' rs, presentWholeText text s = some (out', { t with responses := rs }) ∧ (t.err = false → out' = out) := by
  induction text generalizing s out with
  | nil =>
    cases h
    exact ⟨_, _, rfl, fun _ => rfl⟩
  | cons c cs ih =>
    obtain ⟨-, data, heffect⟩ | ⟨-, u, data, heffect, huerr, huinv⟩ := dsym_effect_cases hinv herr c
    · rw [presentText_cons hready heffect, if_pos rfl] at h
      cases h
      obtain ⟨out, rs, hrest⟩ := presentWholeText_of_err cs
        (s := respond { s with err := true } .invalidCharacter data) hready rfl
      exact ⟨_, rs, by rw [presentWholeText_cons hready heffect, hrest]; rfl, nofun⟩
    · rw [presentText_cons hready heffect, if_neg nofun, Option.map_eq_some_iff] at h
      obtain ⟨⟨tail, t⟩, htail, hpair⟩ := h
      cases hpair
      obtain ⟨out', rs, hrest, hout⟩ := ih (s := respond u .ok data) (heffect.ready hready) huinv huerr htail
      exact ⟨_, rs, by rw [presentWholeText_cons hready heffect, hrest]; rfl, fun ht => by rw [hout ht]⟩

/-- Settles O54: both hosts reach DEND with the same registers, and with the same bytes unless ERR is set. -/
theorem earlyStopSameResult : Obligations.EarlyStopSameResult := by
  unfold Obligations.EarlyStopSameResult
  intro text s hready
  have hstart := ready_afterDinit hready
  have hinv := decoderInv_afterDinit s
  obtain ⟨out, t, hpresent, ht, -⟩ := presentText_err_iff text hstart hinv rfl
  obtain ⟨out', rs, hwhole, hout⟩ := presentWholeText_of_presentText hstart hinv rfl hpresent
  refine ⟨_, afterDend t, afterDend { t with responses := rs },
    by rw [hostDecode_eq hready, hpresent, finishDecode_some ht], ?_, rfl⟩
  rw [hostDecodeWhole_eq hready, hwhole, finishDecode_some (t := { t with responses := rs }) ht]
  cases herr : t.err with
  | true => rfl
  | false => rw [hout herr]

/-! ## The end of a run -/

theorem step_idle {s : State} (h : s.script = []) : step s = .next s := by
  simp [step, nextEvent, h]

theorem step_accept_idle {s : State} {rest : List HostEvent} (h : s.script = .accept :: rest) (hflight : s.inFlight = none) :
    step s = .next { s with script := rest } := by
  simp [step, nextEvent, h, takeAccept, hflight]

theorem step_powerCycle {s : State} {rest : List HostEvent} (h : s.script = .powerCycle :: rest) :
    step s = .next (losePower { s with script := rest }) := by
  simp [step, nextEvent, h]

/-- Settles O60, by the next event: none that is left issues a command, and each of the others leaves none in flight. -/
theorem endedRunStaysEnded : Obligations.EndedRunStaysEnded := by
  unfold Obligations.EndedRunStaysEnded
  rintro s ⟨hscript, hflight⟩
  cases hs : s.script with
  | nil => exact ⟨s, step_idle hs, ⟨hscript, hflight⟩, rfl⟩
  | cons e rest =>
    rw [hs] at hscript
    obtain ⟨he, hrest⟩ := List.forall_mem_cons.mp hscript
    cases e with
    | command w | offer w => exact absurd he (by simp [issuesCommand])
    | accept => exact ⟨_, step_accept_idle hs hflight, ⟨hrest, hflight⟩, rfl⟩
    | reset => exact ⟨_, step_reset hs, ⟨hrest, rfl⟩, rfl⟩
    | powerCycle => exact ⟨_, step_powerCycle hs, ⟨hrest, rfl⟩, rfl⟩

end Sys2Proof.Machine

/-! # The exceptions family: which words a step answers, and the order of precedence of the response codes -/

namespace Sys2Proof.Machine

/-! ## The response code of a word -/

/-- Under `INV` every command has an effect: only DSYM asks for `INV` (R28, R155). -/
theorem exists_effect {s : State} (hinv : DecoderInv s) (i : Instr) : ∃ u code data, CommandEffect s i u code data := by
  cases i with
  | dinit => exact ⟨_, _, _, .dinit⟩
  | dsym sym => exact exists_dsym_effect hinv sym
  | dend => exact ⟨_, _, _, .dend⟩
  | stat => exact ⟨_, _, _, .stat⟩
  | enc1 | enc2 | enc3 | alph | rlut => exact ⟨_, _, _, .registerFree rfl⟩

/-- The precedence of R154 by a legal word's opcode: ERR decides DEND, ERR and then the symbol decide DSYM, and every
other command completes. -/
theorem codeByPrecedence_of_legal {w : Word} (h : ¬ isIllegalWord w) (s : State) :
    codeByPrecedence w s =
      if opField w = 0x3#4 ∧ (s.err = true ∨ rev (symField w) = ⟨false, false, 0#6⟩) ∨
          opField w = 0x4#4 ∧ s.err = true then .invalidCharacter else .ok := by
  rw [codeByPrecedence, if_neg h, ← opField, ← symField]
  split_ifs <;> tauto

/-- A command answers with the code that the precedence of R154 gives its word. -/
theorem CommandEffect.code_eq_codeByPrecedence {s u : State} {i : Instr} {code : RspCode} {data : Word} {w : Word}
    (h : CommandEffect s i u code data) (hfields : FieldsOf w i) : code = codeByPrecedence w s := by
  rw [codeByPrecedence_of_legal fun hillegal => not_fieldsOf_of_illegal hillegal i hfields]
  cases h with
  | registerFree hi =>
    cases i with
    | dinit | dsym | dend | stat => exact absurd hi Bool.false_ne_true
    | enc1 | enc2 | enc3 | alph | rlut =>
      obtain ⟨hop, -⟩ := hfields
      simp [hop]
  | stat | dinit | dend => simp [show opField w = _ from hfields]
  | fail hcause =>
    obtain ⟨hop, rfl⟩ := hfields
    exact (if_pos (.inl ⟨hop, hcause⟩)).symm
  | shift herr hvalid =>
    obtain ⟨hop, rfl⟩ := hfields
    have hnot : rev (symField w) ≠ ⟨false, false, 0#6⟩ := fun hrev => by simp [hrev] at hvalid
    simp [hop, herr, hnot]
  | skip herr =>
    obtain ⟨hop, hsym⟩ := hfields
    simp [hop, herr, hsym, rev_padSymbol]

/-- Settles O41: an illegal word raises IllegalCommand, and a command has an effect, whose code is that of R154. -/
theorem responseCodePrecedence : Obligations.ResponseCodePrecedence := by
  unfold Obligations.ResponseCodePrecedence
  intro s w hr hinv
  cases hdecode : decode w with
  | error e =>
    have hcode : codeByPrecedence w s = .illegalCommand := if_pos (decode_eq_error_iff.mp ⟨e, hdecode⟩)
    rw [performWord_error hdecode, raiseIllegalCommand_of_rstDone hr, hcode]
    exact ⟨_, _, rfl, rfl⟩
  | ok i =>
    obtain ⟨u, code, data, heffect⟩ := exists_effect hinv i
    obtain ⟨-, -, -, -, hresponses⟩ := heffect.frame
    obtain rfl := heffect.code_eq_codeByPrecedence (decode_eq_ok_iff.mp hdecode)
    exact ⟨_, data, (performWord_ok hdecode s).trans (heffect.exec_eq hr), by rw [respond_responses, hresponses]⟩

/-! ## The steps that take a command -/

/-- Before the first reset every word is refused, legal or illegal (R174). -/
theorem performWord_of_not_rstDone (w : Word) {s : State} (hr : s.rstDone = false) :
    performWord w s = .refused .beforeReset := by
  cases hdecode : decode w with
  | ok i => rw [performWord_ok hdecode, exec_of_not_rstDone i hr]
  | error e => rw [performWord_error hdecode, raiseIllegalCommand, afterReset_before hr]

/-- The host issues `w` next, and takes its response at once or holds it off (R172). -/
abbrev IssuesNext (s : State) (w : Word) (rest : List HostEvent) : Prop :=
  s.script = .command w :: rest ∨ s.script = .offer w :: rest

theorem step_offer {w : Word} {rest : List HostEvent} {s : State} (hs : s.script = .offer w :: rest)
    (hflight : s.inFlight = none) :
    step s = afterReset s (.next { s with script := rest, inFlight := some w }) := by
  simp [step, nextEvent, hs, takeOffer, hflight]

theorem step_accept {w : Word} {rest : List HostEvent} {s : State} (hs : s.script = .accept :: rest)
    (hflight : s.inFlight = some w) : step s = performWord w { s with script := rest, inFlight := none } := by
  simp [step, nextEvent, hs, takeAccept, hflight]

/-- While a command is in flight no other is taken (R172). -/
theorem step_issue_of_inFlight {s : State} {v w : Word} {rest : List HostEvent} (hs : IssuesNext s w rest)
    (hflight : s.inFlight = some v) : step s = .next s := by
  rcases hs with hs | hs
  · simp [step, nextEvent, hs, takeCommand, hflight]
  · simp [step, nextEvent, hs, takeOffer, hflight]

/-- A command issued before the first reset is refused (R174). -/
theorem step_issue_of_not_rstDone {s : State} {w : Word} {rest : List HostEvent} (hs : IssuesNext s w rest)
    (hflight : s.inFlight = none) (hr : s.rstDone = false) : step s = .refused .beforeReset := by
  rcases hs with hs | hs
  · exact (step_command hs hflight).trans (performWord_of_not_rstDone w hr)
  · exact (step_offer hs hflight).trans (afterReset_before hr)

/-- After a reset, under `INV`, an issued command is performed or held (R172, R174). -/
theorem step_issue_of_ready {s : State} {w : Word} {rest : List HostEvent} (hs : IssuesNext s w rest)
    (hready : Ready s) (hinv : DecoderInv s) : ∃ t, step s = .next t := by
  obtain ⟨hr, hflight⟩ := hready
  rcases hs with hs | hs
  · obtain ⟨t, -, hperform, -⟩ := responseCodePrecedence { s with script := rest } w hr hinv
    exact ⟨t, (step_command hs hflight).trans hperform⟩
  · exact ⟨_, (step_offer hs hflight).trans (afterReset_of_rstDone hr)⟩

/-- In a safe state an issued command is answered, held or not taken, but before the first reset it is refused
(R172, R174). -/
theorem step_issue_of_safe {s : State} {w : Word} {rest : List HostEvent} (hs : IssuesNext s w rest) (hsafe : Safe s) :
    (∃ t, step s = .next t) ∨
      (s.rstDone = false ∧ s.inFlight = none ∧ (∃ w rest, IssuesNext s w rest) ∧ step s = .refused .beforeReset) := by
  cases hflight : s.inFlight with
  | some v => exact .inl ⟨s, step_issue_of_inFlight hs hflight⟩
  | none =>
    cases hr : s.rstDone with
    | true => exact .inl (step_issue_of_ready hs ⟨hr, hflight⟩ (hsafe.1 hr))
    | false => exact .inr ⟨rfl, rfl, ⟨w, rest, hs⟩, step_issue_of_not_rstDone hs hflight hr⟩

/-- Settles O40, by the next event: an issued command answers or is refused before the first reset, a held one is safe
to perform, and the other events always answer. -/
theorem safeStepAnswers : Obligations.SafeStepAnswers := by
  unfold Obligations.SafeStepAnswers
  intro s hsafe
  cases hs : s.script with
  | nil => exact .inl ⟨s, step_idle hs⟩
  | cons e rest =>
    rw [← hs]
    cases e with
    | command w => exact step_issue_of_safe (.inl hs) hsafe
    | offer w => exact step_issue_of_safe (.inr hs) hsafe
    | reset => exact .inl ⟨_, step_reset hs⟩
    | powerCycle => exact .inl ⟨_, step_powerCycle hs⟩
    | accept =>
      cases hflight : s.inFlight with
      | none => exact .inl ⟨_, step_accept_idle hs hflight⟩
      | some w =>
        have hr : s.rstDone = true := hsafe.2 (by simp [hflight])
        obtain ⟨t, -, hperform, -⟩ :=
          responseCodePrecedence { s with script := rest, inFlight := none } w hr (hsafe.1 hr)
        exact .inl ⟨t, (step_accept hs hflight).trans hperform⟩

/-- Settles O13: the idle step, and the step of a loss of power, which leaves RST_DONE = 0. -/
theorem registersPersistUntilPowerLoss : Obligations.RegistersPersistUntilPowerLoss := by
  unfold Obligations.RegistersPersistUntilPowerLoss
  refine ⟨fun s => step_idle, fun s rest hs => ⟨_, step_powerCycle hs, rfl, rfl, rfl, rfl, fun i => ?_⟩⟩
  exact exec_of_not_rstDone i rfl

end Sys2Proof.Machine

/-! # The reset and hazards family: what a step can do, and how many responses it delivers -/

namespace Sys2Proof.Machine

/-! ## The inversion of `step` -/

/-- `StepEffect s t`: the step from `s` answers the next state `t`. One constructor for each way the next event of the
host can be taken (R171 to R174, R179). -/
inductive StepEffect (s : State) : State → Prop
  | idle (hs : s.script = []) : StepEffect s s
  /-- Another command is in flight, so the word goes on waiting (R172). -/
  | stall {v w : Word} {rest : List HostEvent} (hs : IssuesNext s w rest) (hflight : s.inFlight = some v) : StepEffect s s
  | command {w : Word} {rest : List HostEvent} {t : State} (hs : s.script = .command w :: rest) (hflight : s.inFlight = none)
      (hperform : performWord w { s with script := rest } = .next t) : StepEffect s t
  | offer {w : Word} {rest : List HostEvent} (hs : s.script = .offer w :: rest) (hflight : s.inFlight = none)
      (hr : s.rstDone = true) : StepEffect s { s with script := rest, inFlight := some w }
  | acceptIdle {rest : List HostEvent} (hs : s.script = .accept :: rest) (hflight : s.inFlight = none) :
      StepEffect s { s with script := rest }
  | accept {w : Word} {rest : List HostEvent} {t : State} (hs : s.script = .accept :: rest) (hflight : s.inFlight = some w)
      (hperform : performWord w { s with script := rest, inFlight := none } = .next t) : StepEffect s t
  | reset {rest : List HostEvent} (hs : s.script = .reset :: rest) : StepEffect s (assertReset { s with script := rest })
  | powerCycle {rest : List HostEvent} (hs : s.script = .powerCycle :: rest) :
      StepEffect s (losePower { s with script := rest })

/-- A step answers a next state in these ways only. -/
theorem stepEffect_of_step {s t : State} (h : step s = .next t) : StepEffect s t := by
  cases hs : s.script with
  | nil =>
    rw [step_idle hs] at h
    cases h
    exact .idle hs
  | cons e rest =>
    cases e with
    | command w =>
      cases hflight : s.inFlight with
      | none => exact .command hs hflight ((step_command hs hflight).symm.trans h)
      | some v =>
        rw [step_issue_of_inFlight (.inl hs) hflight] at h
        cases h
        exact .stall (.inl hs) hflight
    | offer w =>
      cases hflight : s.inFlight with
      | none =>
        rw [step_offer hs hflight, afterReset_eq_next] at h
        obtain ⟨hr, hnext⟩ := h
        cases hnext
        exact .offer hs hflight hr
      | some v =>
        rw [step_issue_of_inFlight (.inr hs) hflight] at h
        cases h
        exact .stall (.inr hs) hflight
    | accept =>
      cases hflight : s.inFlight with
      | none =>
        rw [step_accept_idle hs hflight] at h
        cases h
        exact .acceptIdle hs hflight
      | some w => exact .accept hs hflight ((step_accept hs hflight).symm.trans h)
    | reset =>
      rw [step_reset hs] at h
      cases h
      exact .reset hs
    | powerCycle =>
      rw [step_powerCycle hs] at h
      cases h
      exact .powerCycle hs

/-! ## What performing a word keeps -/

/-- A word completes only after a reset: an illegal one answers, a legal one has its command's effect (R66, R174). -/
theorem performWord_cases {w : Word} {s t : State} (h : performWord w s = .next t) :
    s.rstDone = true ∧ ∃ u code data, t = respond u code data ∧ (u = s ∨ ∃ i, CommandEffect s i u code data) := by
  cases hdecode : decode w with
  | error e =>
    rw [performWord_error hdecode] at h
    obtain ⟨hr, hanswer⟩ := afterReset_eq_next.mp h
    exact ⟨hr, s, _, _, (answer_eq_next.mp hanswer).symm, .inl rfl⟩
  | ok i =>
    rw [performWord_ok hdecode] at h
    obtain ⟨hr, u, code, data, heffect, ht⟩ := exec_eq_next_iff.mp h
    exact ⟨hr, u, code, data, ht, .inr ⟨i, heffect⟩⟩

/-- Performing a word takes no event, puts nothing in flight, and delivers exactly one response (R32, R67). -/
theorem performWord_frame {w : Word} {s t : State} (h : performWord w s = .next t) :
    t.rstDone = s.rstDone ∧ t.inFlight = s.inFlight ∧ t.script = s.script ∧ ∃ r, t.responses = s.responses ++ [r] := by
  obtain ⟨-, u, code, data, rfl, rfl | ⟨i, heffect⟩⟩ := performWord_cases h
  · exact ⟨rfl, rfl, rfl, _, rfl⟩
  · obtain ⟨hrstDone, hflight, hscript, -, hresponses⟩ := heffect.frame
    exact ⟨hrstDone, hflight, hscript, ⟨code, data⟩, by rw [respond_responses, hresponses]⟩

/-- Every command keeps `INV`: the two that clear the decoder set it up, and an alphabet symbol shifts in (R28). -/
theorem CommandEffect.decoderInv {s u : State} {i : Instr} {code : RspCode} {data : Word}
    (h : CommandEffect s i u code data) (hinv : DecoderInv s) : DecoderInv u := by
  cases h with
  | dinit | dend => exact decoderInv_clearDecoder s
  | shift => exact decoderInv_shiftIn hinv _
  | registerFree | stat | fail | skip => exact hinv

theorem performWord_decoderInv {w : Word} {s t : State} (h : performWord w s = .next t) (hinv : DecoderInv s) :
    DecoderInv t := by
  obtain ⟨-, u, code, data, rfl, rfl | ⟨i, heffect⟩⟩ := performWord_cases h
  · exact hinv
  · exact heffect.decoderInv hinv

/-- A word performed under `INV` with nothing in flight leaves a safe state (R28, R174). -/
theorem performWord_safe {w : Word} {s t : State} (h : performWord w s = .next t) (hinv : s.rstDone = true → DecoderInv s)
    (hflight : s.inFlight = none) : Safe t := by
  obtain ⟨hr, -⟩ := performWord_cases h
  obtain ⟨-, hflight', -⟩ := performWord_frame h
  exact ⟨fun _ => performWord_decoderInv h (hinv hr), fun hne => absurd (hflight'.trans hflight) hne⟩

/-! ## The safe states -/

/-- Settles O38, by the way the step answers: a word is performed with none in flight and keeps `INV`, one is held only
after a reset, a reset clears the decoder, and a loss of power discards the command in flight. -/
theorem stepKeepsSafe : Obligations.StepKeepsSafe := by
  unfold Obligations.StepKeepsSafe
  rintro s t ⟨hinv, hheld⟩ h
  cases stepEffect_of_step h with
  | idle | stall => exact ⟨hinv, hheld⟩
  | command hs hflight hperform => exact performWord_safe hperform hinv hflight
  | offer hs hflight hr => exact ⟨hinv, fun _ => hr⟩
  | acceptIdle hs hflight => exact ⟨hinv, hheld⟩
  | accept hs hflight hperform => exact performWord_safe hperform hinv rfl
  | reset hs => exact ⟨fun _ => decoderInv_clearDecoder s, fun _ => rfl⟩
  | powerCycle hs => exact ⟨nofun, fun hne => absurd rfl hne⟩

/-! ## The responses a step delivers -/

/-- Settles O43, by the way the step answers: a response comes with each word performed, and with nothing else. -/
theorem responsesOnlyGrow : Obligations.ResponsesOnlyGrow := by
  unfold Obligations.ResponsesOnlyGrow
  intro s t h
  cases stepEffect_of_step h with
  | idle hs => exact .inr ⟨rfl, by simp [hs], by simp [hs]⟩
  | stall hs hflight =>
    refine .inr ⟨rfl, by simp [hflight], fun rest hs' => ?_⟩
    rcases hs with hs | hs <;> cases hs.symm.trans hs'
  | command hs hflight hperform =>
    obtain ⟨-, hflight', hscript, r, hresponses⟩ := performWord_frame hperform
    exact .inl ⟨r, hresponses, hflight'.trans hflight, .inl ⟨_, by rw [hscript, hs], hflight⟩⟩
  | accept hs hflight hperform =>
    obtain ⟨-, hflight', hscript, r, hresponses⟩ := performWord_frame hperform
    exact .inl ⟨r, hresponses, hflight', .inr ⟨_, by rw [hscript, hs], hflight⟩⟩
  | acceptIdle hs hflight => exact .inr ⟨rfl, by simp [hs], fun _ _ => hflight⟩
  | offer hs | reset hs | powerCycle hs => exact .inr ⟨rfl, by simp [hs], by simp [hs]⟩

/-! ## The responses of the host programs -/

/-- The response the host takes for a command it issues is the one response that is added (R67, R172). -/
theorem responses_of_issue {i : Instr} {s t : State} {r : Response} (h : issue i s = some (r, t)) :
    t.responses = s.responses ++ [r] := by
  unfold issue at h
  split at h
  · next u hstep =>
    obtain ⟨r', hr', hpair⟩ := Option.map_eq_some_iff.mp h
    cases hpair
    obtain ⟨r'', hresponses, -⟩ | ⟨hresponses, -⟩ := responsesOnlyGrow _ _ hstep
    · rw [hresponses] at hr' ⊢
      simpa using hr'
    · simp [hresponses] at hr'
  · cases h
  · cases h

theorem length_responses_of_issue {i : Instr} {s t : State} {r : Response} (h : issue i s = some (r, t)) :
    t.responses.length = s.responses.length + 1 := by
  rw [responses_of_issue h, List.length_append, List.length_singleton]

/-- One response for each command of a program (R178). -/
theorem length_responses_of_issueAll {is : List Instr} {rs : List Response} {s t : State}
    (h : issueAll is s = some (rs, t)) : t.responses.length = s.responses.length + is.length := by
  induction is generalizing s rs with
  | nil =>
    cases h
    rfl
  | cons i is ih =>
    rw [issueAll] at h
    split at h
    · cases h
    · next r u hissue =>
      obtain ⟨⟨tail, t⟩, hrest, hpair⟩ := Option.map_eq_some_iff.mp h
      cases hpair
      have hone := length_responses_of_issue hissue
      have htail := ih hrest
      rw [List.length_cons]
      omega

/-- One response for each group of three bytes, and one for a shorter final group (R178). -/
theorem length_responses_of_hostEncode {data text : List Byte} {s t : State} (h : hostEncode data s = some (text, t)) :
    t.responses.length = s.responses.length + (data.length + 2) / 3 := by
  obtain ⟨⟨rs, t⟩, hissue, hpair⟩ := Option.map_eq_some_iff.mp h
  cases hpair
  rw [length_responses_of_issueAll hissue, length_encodeProgram]

/-- One response for each character, when every character is presented (R178). -/
theorem length_responses_of_presentWholeText {text out : List Byte} {s t : State}
    (h : presentWholeText text s = some (out, t)) : t.responses.length = s.responses.length + text.length := by
  induction text generalizing s out with
  | nil =>
    cases h
    rfl
  | cons c cs ih =>
    rw [presentWholeText] at h
    split at h
    · cases h
    · next r u hissue =>
      obtain ⟨⟨tail, t⟩, hrest, hpair⟩ := Option.map_eq_some_iff.mp h
      cases hpair
      have hone := length_responses_of_issue hissue
      have htail := ih hrest
      rw [List.length_cons]
      omega

/-- DINIT, every character and DEND each deliver one response (R178). -/
theorem length_responses_of_hostDecodeWhole {text : List Byte} {result : DecodeResult} {s t : State}
    (h : hostDecodeWhole text s = some (result, t)) :
    t.responses.length = s.responses.length + (text.length + 2) := by
  unfold hostDecodeWhole at h
  split at h
  · cases h
  · next r u hdinit =>
    unfold finishDecode at h
    split at h
    · cases h
    · next out v htext =>
      obtain ⟨⟨r', t⟩, hdend, hpair⟩ := Option.map_eq_some_iff.mp h
      cases hpair
      have hfirst := length_responses_of_issue hdinit
      have hchars := length_responses_of_presentWholeText htext
      have hlast := length_responses_of_issue hdend
      dsimp only
      omega

/-- Settles O56: both programs complete, and every command of theirs delivers its one response. -/
theorem transactionCommandCounts : Obligations.TransactionCommandCounts := by
  unfold Obligations.TransactionCommandCounts
  intro s hready
  refine ⟨fun data => ⟨length_encodeProgram data, ?_⟩, fun text => ?_⟩
  · obtain ⟨rs, hencode⟩ := hostEncode_eq_encodedText data hready
    exact ⟨_, _, hencode, length_responses_of_hostEncode hencode⟩
  · obtain ⟨result, -, u, -, hwhole, -⟩ := earlyStopSameResult text s hready
    exact ⟨result, u, hwhole, length_responses_of_hostDecodeWhole hwhole⟩

/-! ## The handshake, and the block before its first reset -/

/-- Settles O7: taking the held response performs the word in the state in which the atomic step performs it. -/
theorem offerThenAcceptIsOneCommand : Obligations.OfferThenAcceptIsOneCommand := by
  unfold Obligations.OfferThenAcceptIsOneCommand
  rintro s w rest ⟨hr, hflight⟩ hs
  refine ⟨_, (step_offer hs hflight).trans (afterReset_of_rstDone hr), rfl, ?_⟩
  calc step { s with script := .accept :: rest, inFlight := some w }
    _ = performWord w { s with script := rest, inFlight := none } := step_accept rfl rfl
    _ = performWord w { s with script := rest } := by rw [← hflight]
    _ = step { s with script := .command w :: rest } :=
      (step_command (s := { s with script := .command w :: rest }) rfl hflight).symm

/-- Settles O8: an issued word waits while another is in flight, and with none in flight there is no response to take. -/
theorem commandInFlightStalls : Obligations.CommandInFlightStalls := by
  unfold Obligations.CommandInFlightStalls
  exact ⟨fun _ _ _ _ hflight hs => step_issue_of_inFlight hs hflight,
    fun _ _ hflight hs => step_accept_idle hs hflight⟩

/-- Settles O11: commands, words and the steps that issue them are refused where RST_DONE = 0. -/
theorem noCommandBeforeReset : Obligations.NoCommandBeforeReset := by
  unfold Obligations.NoCommandBeforeReset
  exact fun _ hr => ⟨fun i => exec_of_not_rstDone i hr, fun w => performWord_of_not_rstDone w hr,
    fun _ _ hflight hs => step_issue_of_not_rstDone hs hflight hr⟩

/-- Settles O12: the reset gives every register its value, whatever a loss of power left in it. -/
theorem bootNeedsOneReset : Obligations.BootNeedsOneReset := by
  unfold Obligations.BootNeedsOneReset
  refine ⟨losePower_rstDone _, fun rest => ⟨_, step_reset rfl, ?_⟩⟩
  simp [Ready, Clean, powerUp, State.reset]

end Sys2Proof.Machine

/-! # DSYM outside `INV` -/

namespace Sys2Proof.Machine

/-- Outside `INV` an alphabet symbol is refused (log entry 9). -/
theorem presentSymbol_of_not_inv {s : State} (hinv : ¬ DecoderInv s) (idx : Index) :
    presentSymbol s idx = .refused .outsideInv := if_neg hinv

/-- While ERR = 0, DSYM of an alphabet symbol is that symbol presented (R102). -/
theorem exec_dsym_eq_presentSymbol {s : State} {sym : Byte} (hr : s.rstDone = true) (herr : s.err = false)
    (hvalid : (rev sym).valid = true) : exec (.dsym sym) s = presentSymbol s (rev sym).idx := by
  refine (afterReset_of_rstDone hr).trans ?_
  simp [herr, hvalid]

/-- The sticky error, and with ERR = 0 a symbol outside the alphabet, have an effect whatever ACC and CNT hold (R104,
R105). -/
theorem exists_dsym_effect_of_err_or_not_valid {s : State} {sym : Byte} (h : s.err = true ∨ (rev sym).valid = false) :
    ∃ u code data, CommandEffect s (.dsym sym) u code data := by
  cases herr : s.err with
  | true => exact ⟨_, _, _, .fail (.inl herr)⟩
  | false =>
    have hvalid : (rev sym).valid = false := h.resolve_left (by simp [herr])
    obtain ⟨hvalid', -⟩ | ⟨rfl, -⟩ | ⟨-, hinvalid⟩ := rev_cases sym
    · simp [hvalid] at hvalid'
    · exact ⟨_, _, _, .skip herr⟩
    · exact ⟨_, _, _, .fail (.inr hinvalid)⟩

/-- Settles O36: the presented symbol is where `INV` is asked for, and the other kinds of DSYM have their effect. -/
theorem dsymOutsideInvIsRefused : Obligations.DsymOutsideInvIsRefused := by
  unfold Obligations.DsymOutsideInvIsRefused
  intro s sym hr hinv
  constructor
  · rintro ⟨herr, hvalid⟩
    rw [exec_dsym_eq_presentSymbol hr herr hvalid, presentSymbol_of_not_inv hinv]
  · intro h
    obtain ⟨u, code, data, heffect⟩ := exists_dsym_effect_of_err_or_not_valid h
    exact ⟨_, heffect.exec_eq hr⟩

end Sys2Proof.Machine
